-- ==== Sys2Proof/Word.lean ====
section
/-! DEFINITION. The plain value types of the machine: register values, text, names, the four ALU
operations and the addressing-mode tags (spec 00_scope.md R6, R7, R9; 10_state.md R13). -/

namespace Sys2Proof

/-- R7: one IEEE 754 binary64 datum, as its 64-bit pattern; bit 63 is the sign, bits 62 to 52 the
biased exponent, bits 51 to 0 the fraction. -/
abbrev Num64 := BitVec 64

/-- R6: a string is a finite sequence of characters. DESIGN CHOICE (log entry 1): a character is a
Unicode scalar value. -/
abbrev Text := List Char

/-- R6: a token; that it is non-empty and holds no whitespace is `isToken`. -/
abbrev Token := Text

/-- R9: a register name is a token; two names are one register only when they are equal strings. -/
abbrev RegName := Token

/-- R21: `AluOp = {add, sub, mul, div}`. -/
inductive AluOp where
  | add
  | sub
  | mul
  | div
  deriving DecidableEq, Repr

/-- The addressing-mode tags of R15 (`"direct"`) and R38 (`IMMEDIATE`). -/
inductive AddrMode where
  | immediate
  | direct
  deriving DecidableEq, Repr

/-- R25: `w ∈ {Main, Inc}`, an instruction's own ALU dispatch or its `IncrementCP`. -/
inductive Which where
  | main
  | inc
  deriving DecidableEq, Repr

end Sys2Proof
end

