-- ==== Sys2Proof/Machine/Text.lean ====
section
/-! DEFINITION. Characters, lines and tokens: whitespace and digits (R5, R58), the tokenizer (R52),
canonical lines (R54) and the line splitter of the loader (R41). -/

namespace Sys2Proof.Machine

/-- R5, the parameter `WS` at this hardware's value: U+0009 to U+000D and U+0020. -/
def isWS (c : Char) : Bool :=
  (9 ≤ c.toNat && c.toNat ≤ 13) || c.toNat == 32

/-- R58: `'0'..'9'`, U+0030 to U+0039. -/
def isDigit (c : Char) : Bool :=
  48 ≤ c.toNat && c.toNat ≤ 57

/-- R41: U+000A ends a line. -/
def isLF (c : Char) : Bool :=
  c.toNat == 10

/-- R6: a token is a non-empty string with no character of `WS`. -/
def isToken (t : Text) : Bool :=
  !t.isEmpty && t.all (fun c => !isWS c)

/-- R6, R38: what a memory cell may hold, a non-empty string with no LF. -/
def isCellText (l : Text) : Bool :=
  !l.isEmpty && l.all (fun c => !isLF c)

/-- The substrings between the separators, in order, empty ones included; `k` separators give
`k + 1` substrings (R41). -/
def pieces (sep : Char → Bool) : Text → List Text
  | [] => [[]]
  | c :: cs =>
    if sep c then [] :: pieces sep cs
    else
      match pieces sep cs with
      | [] => [[c]]
      | p :: ps => (c :: p) :: ps

/-- R52: the maximal substrings with no character of `WS`, in order. -/
def tokens (l : Text) : List Token :=
  (pieces isWS l).filter (fun p => !p.isEmpty)

/-- R41: the lines of a program text, split at LF alone, the empty ones discarded. -/
def programLines (p : Text) : List Text :=
  (pieces isLF p).filter (fun l => !l.isEmpty)

/-- R54: no two U+0020 characters are adjacent. -/
def noDoubleSpace : Text → Bool
  | c :: d :: cs => !(c == ' ' && d == ' ') && noDoubleSpace (d :: cs)
  | _ => true

/-- R54: no whitespace at either end, no whitespace but U+0020, and no two of those adjacent. -/
def canonical (l : Text) : Bool :=
  !(l.head?.any isWS) && !(l.getLast?.any isWS) && l.all (fun c => !isWS c || c == ' ')
    && noDoubleSpace l

end Sys2Proof.Machine
end

