-- ==== Sys2Proof/Syntax.lean ====
section
/-! DEFINITION. The instructions: one constructor per row of spec/opcode_table.json (R62). -/

namespace Sys2Proof

/-- R53, R62: what a line decodes to. `a` is operand-one, `b` operand-two; the tokens `t[3..]` are
ignored by decoding and appear nowhere here. -/
inductive Instr where
  /-- R83: `mov a b`. -/
  | mov (a : RegName) (b : Token)
  /-- R99: `add a b`. -/
  | add (a : RegName) (b : Token)
  /-- R100: `sub a b`. -/
  | sub (a : RegName) (b : Token)
  /-- R101: `mul a b`. -/
  | mul (a : RegName) (b : Token)
  /-- R102: `div a b`. -/
  | div (a : RegName) (b : Token)
  /-- R73: a line of fewer than three tokens, `<decode-skip>`. -/
  | decodeSkip (ts : List Token)
  /-- R75: three tokens under an opcode that is not one of the five, `<unknown-opcode>`. -/
  | unknownOpcode (op : Token) (a : Token) (b : Token)
  deriving DecidableEq, Repr

end Sys2Proof
end

