-- ==== Sys2Proof/WellFormed.lean ====
section
/-! DEFINITION. Which terms of `Instr` stand for a line (R53, R56, R62). -/

namespace Sys2Proof

/-- R56: the five opcode tokens, matched as exact case-sensitive strings. -/
def opcodeTokens : List Token :=
  ["mov".toList, "add".toList, "sub".toList, "mul".toList, "div".toList]

/-- An instruction is well-formed when its operands are tokens, a decode skip has fewer than three
of them (R73), and an unknown opcode is none of the five (R75). -/
def Instr.wf : Instr → Bool
  | .mov a b => Machine.isToken a && Machine.isToken b
  | .add a b => Machine.isToken a && Machine.isToken b
  | .sub a b => Machine.isToken a && Machine.isToken b
  | .mul a b => Machine.isToken a && Machine.isToken b
  | .div a b => Machine.isToken a && Machine.isToken b
  | .decodeSkip ts => decide (ts.length < 3) && ts.all Machine.isToken
  | .unknownOpcode op a b =>
    Machine.isToken op && Machine.isToken a && Machine.isToken b && !(opcodeTokens.contains op)

end Sys2Proof
end

