-- ==== Sys2Proof/Decode.lean ====
section
/-! DEFINITION. The decode stage (R72), total on any text, and the encoder: the canonical line of an
instruction (R51, R54). -/

namespace Sys2Proof

/-- Why a line is not decoded. -/
inductive DecodeError where
  /-- R55: strict tokenizing and a line that is not canonical. -/
  | nonCanonicalLine
  deriving DecidableEq, Repr

/-- R53, R62: the opcode map, read from the tokens; `t[3..]` is ignored. -/
def decodeTokens : List Token → Instr
  | op :: a :: b :: _ =>
    if op = "mov".toList then .mov a b
    else if op = "add".toList then .add a b
    else if op = "sub".toList then .sub a b
    else if op = "mul".toList then .mul a b
    else if op = "div".toList then .div a b
    else .unknownOpcode op a b
  | ts => .decodeSkip ts

/-- R72: the decode stage; `strict` is `TOKENIZE_STRICT`. -/
def decode (strict : Bool) (l : Text) : Except DecodeError Instr :=
  if strict && !Machine.canonical l then .error .nonCanonicalLine
  else .ok (decodeTokens (Machine.tokens l))

/-- The tokens an instruction is written with (R51, format `T3`). -/
def Instr.fields : Instr → List Token
  | .mov a b => ["mov".toList, a, b]
  | .add a b => ["add".toList, a, b]
  | .sub a b => ["sub".toList, a, b]
  | .mul a b => ["mul".toList, a, b]
  | .div a b => ["div".toList, a, b]
  | .decodeSkip ts => ts
  | .unknownOpcode op a b => [op, a, b]

/-- Tokens joined by single U+0020 characters. No tokens at all are written as one space, the
shortest line that holds none (log entry 12). -/
def joinTokens : List Token → Text
  | [] => [' ']
  | [t] => t
  | t :: u :: ts => t ++ ' ' :: joinTokens (u :: ts)

/-- The line of an instruction, canonical wherever a canonical line for it exists (R51, R54, R65). -/
def encode (i : Instr) : Text :=
  joinTokens i.fields

/-- The characters in the bits of a numbered instruction (log entry 11, DESIGN CHOICE): character
`k` is the byte in bits `8k + 7` to `8k`. The spec gives lines no bits (R4). -/
def textOfBits (nbits w : Nat) : Text :=
  (List.range (nbits / 8)).map (fun k => Char.ofNat (w / 2 ^ (8 * k) % 256))

/-- What the decoder reads from an instruction whose bits are `w`. -/
def decodeTableWord (nbits w : Nat) : Option Instr :=
  match decode false (textOfBits nbits w) with
  | .ok i => some i
  | .error _ => none

end Sys2Proof
end

