-- ==== Sys2Proof/Config.lean ====
section
/-! DEFINITION. What one implementation fixes: the parameters of R5 that vary, and the free values
the spec leaves open (bus message texts, NaN patterns). A free value has no body: nothing can be
proved of it that does not hold for every value. -/

namespace Sys2Proof

/-- The parameters of R5 that are not fixed for this hardware. They are carried in the state
(log entries 2 and 3), and no step and no load writes them (R27, R36). -/
structure Params where
  /-- R27: `AVAIL`, the configured register names, listed without repeats. -/
  avail : List RegName
  /-- R55: refuse every non-canonical line. -/
  tokenizeStrict : Bool
  /-- R127: every load also resets registers, `IR` and the staging slot. -/
  clearOnLoad : Bool
  deriving DecidableEq, Repr

/-- R69: `MSG_FETCH(text)`, an open text (free value, log entry 4). -/
opaque Config.msgFetch : Text → Text

/-- R69: `MSG_RESOLVE(op, a, b)`, an open text (free value, log entry 4). -/
opaque Config.msgResolve : AluOp → RegName → Token → Text

/-- R69: what `MSG_COMPUTE(target)` says before the name (free value, log entry 4). -/
opaque Config.msgComputeBefore : RegName → Text

/-- R69: what `MSG_COMPUTE(target)` says after the name (free value, log entry 4). -/
opaque Config.msgComputeAfter : RegName → Text

/-- R69: `MSG_COMPUTE(n)` is open but for containing the name `n` as a substring. -/
def Config.msgCompute (n : RegName) : Text :=
  Config.msgComputeBefore n ++ n ++ Config.msgComputeAfter n

/-- R98 item 6: the pattern a NaN result has is not fixed (free value, log entry 5). It is used only
through `nanResult`, which keeps the one limit the spec sets: the result is a NaN. -/
opaque Config.nanBits : AluOp → Num64 → Num64 → Num64

end Sys2Proof
end

