-- ==== Sys2Proof/Machine/Binary64.lean ====
section
/-! DEFINITION. IEEE 754 binary64 arithmetic on bit patterns (R7, R97, R98). Every finite datum is a
whole number of units of 2^-1074, so each operation is computed exactly on integers and rounded once,
to nearest with ties to even. -/

namespace Sys2Proof.Machine

/-- R7: `bits(d)[63]`. -/
def signOf (d : Num64) : Bool := d.getLsbD 63

/-- R7: `bits(d)[62:52]`, the biased exponent. -/
def expOf (d : Num64) : Nat := (d.extractLsb' 52 11).toNat

/-- R7: `bits(d)[51:0]`, the fraction. -/
def fracOf (d : Num64) : Nat := (d.extractLsb' 0 52).toNat

/-- A finite datum. -/
def isFinite (d : Num64) : Bool := expOf d != 2047

/-- +Inf or -Inf. -/
def isInf (d : Num64) : Bool := expOf d == 2047 && fracOf d == 0

/-- A NaN, of any payload. -/
def isNaN (d : Num64) : Bool := expOf d == 2047 && fracOf d != 0

/-- +0 or -0. -/
def isZero (d : Num64) : Bool := expOf d == 0 && fracOf d == 0

/-- The magnitude of a finite datum in units of 2^-1074. -/
def magnitude (d : Num64) : Nat :=
  if expOf d = 0 then fracOf d else (2 ^ 52 + fracOf d) * 2 ^ (expOf d - 1)

/-- The value of a finite datum in units of 2^-1074; both zeros have value 0. -/
def scaled (d : Num64) : Int :=
  if signOf d then -(magnitude d : Int) else (magnitude d : Int)

/-- The units of 2^-1074 in 1. -/
def oneUnits : Nat := 2 ^ 1074

/-- The magnitude bits of an infinity. -/
def infMag : Nat := 2047 * 2 ^ 52

/-- A datum from its sign and its low 63 bits. -/
def pack (neg : Bool) (mag : Nat) : Num64 :=
  BitVec.ofNat 64 ((if neg then 2 ^ 63 else 0) + mag)

/-- The units of 2^-1074 that the last significand bit is worth at a magnitude whose whole part is
`q`, as a power of two: significands have 53 bits, and subnormals count single units. -/
def ulpExp (q : Nat) : Nat := Nat.log2 q - 52

/-- `num / den`, rounded to the nearest whole number, ties to even. -/
def roundHalfEven (num den : Nat) : Nat :=
  let m := num / den
  let r := num % den
  if den < 2 * r || (2 * r == den && m % 2 == 1) then m + 1 else m

/-- R98: the magnitude bits of the binary64 datum nearest to `num / den` units of 2^-1074, ties to
even. A significand that rounds up to 2^53 carries into the exponent by plain addition, and a result
past the largest finite datum is an infinity (item 1). -/
def roundMag (num den : Nat) : Nat :=
  let k := ulpExp (num / den)
  min (k * 2 ^ 52 + roundHalfEven num (den * 2 ^ k)) infMag

/-- R7: `toNum(v)`. Irreducible, so that no proof evaluates it by accident. -/
@[irreducible] def ofInt (v : Int) : Num64 :=
  pack (decide (v < 0)) (roundMag (v.natAbs * oneUnits) 1)

/-- R98 item 6: some NaN, of a pattern the spec does not fix (log entry 5). -/
def nanResult (op : AluOp) (x y : Num64) : Num64 :=
  if isNaN (Config.nanBits op x y) then Config.nanBits op x y else 0x7FF8000000000000#64

/-- The datum with the sign bit inverted. -/
def negate (d : Num64) : Num64 := d ^^^ 0x8000000000000000#64

/-- R98 items 1, 3, 5, 6: addition; `nan` is the result where the sum is a NaN. -/
def addNum (nan x y : Num64) : Num64 :=
  if isNaN x || isNaN y then nan
  else if isInf x then (if isInf y && signOf x != signOf y then nan else x)
  else if isInf y then y
  else
    let z := scaled x + scaled y
    pack (if z = 0 then signOf x && signOf y else decide (z < 0)) (roundMag z.natAbs 1)

/-- R98 items 1, 3, 5, 6: multiplication. -/
def mulNum (nan x y : Num64) : Num64 :=
  if isNaN x || isNaN y then nan
  else if isInf x || isInf y then
    (if isZero x || isZero y then nan else pack (signOf x != signOf y) infMag)
  else pack (signOf x != signOf y) (roundMag (magnitude x * magnitude y) oneUnits)

/-- R98 items 1, 3, 4, 5, 6 and R103: real division, rounded once. -/
def divNum (nan x y : Num64) : Num64 :=
  if isNaN x || isNaN y then nan
  else if isInf x then (if isInf y then nan else pack (signOf x != signOf y) infMag)
  else if isInf y then pack (signOf x != signOf y) 0
  else if isZero y then (if isZero x then nan else pack (signOf x != signOf y) infMag)
  else pack (signOf x != signOf y) (roundMag (magnitude x * oneUnits) (magnitude y))

/-- R97: the ALU, a stateless pure function. -/
@[irreducible] def alu (op : AluOp) (x y : Num64) : Num64 :=
  match op with
  | .add => addNum (nanResult .add x y) x y
  | .sub => addNum (nanResult .sub x y) x (negate y)
  | .mul => mulNum (nanResult .mul x y) x y
  | .div => divNum (nanResult .div x y) x y

end Sys2Proof.Machine
end

