-- ==== Sys2Proof/Machine/State.lean ====
section
/-! DEFINITION. The state of the CORE (10_state.md R13), as plain data, the marks and outcomes that
stop it (R35, R110 to R112), and the state after reset (R29). -/

namespace Sys2Proof.Machine

/-- R38: a memory cell, `{ address: IMMEDIATE, value: line }`. A cell's address is its position. -/
structure MemCell where
  address : AddrMode
  value   : Text
  deriving DecidableEq, Repr

/-- R13, R15: `Reg`, the record `{addressType, value}`. -/
structure Reg where
  addressType : AddrMode
  value       : Num64
  deriving DecidableEq, Repr

/-- R19, R71: what `IR` holds, the raw text of the cell fetched last, with its addressing mode. -/
structure InstrReg where
  addressType : AddrMode
  value       : Text
  deriving DecidableEq, Repr

/-- R25: where the engine stands. -/
inductive Phase where
  /-- No run in progress. -/
  | idle
  /-- The fetch transfer of cell `i` is holding. -/
  | fetchHold (i : Nat)
  /-- The resolve transfer of an ALU dispatch is holding. -/
  | resolveHold (i : Nat) (w : Which) (op : AluOp) (a : RegName) (v : Num64)
  /-- The compute transfer of an ALU dispatch is holding. -/
  | computeHold (i : Nat) (w : Which)
  deriving DecidableEq, Repr

/-- R110: the kinds of model fault, the values of the state field `fault`. -/
inductive FaultKind where
  /-- R91: an ALU operand was read from a register that nothing has written. -/
  | uninitializedRead
  /-- R94: compute-and-write-back began with a slot that was never written. -/
  | emptyStaging
  deriving DecidableEq, Repr

/-- R111: the kinds of refusal, the values of the state field `refused`. -/
inductive RefusalKind where
  /-- R55: a non-canonical line under strict tokenizing. -/
  | nonCanonicalLine
  /-- R61: an operand-two whose class is `Unsettled`, where the outcome depends on it. -/
  | unsettledLiteral
  /-- R134: a load while a run is going. -/
  | reloadRace
  /-- R27: an `AVAIL` that holds `"CP"` or a name that is not a token. -/
  | badConfig
  deriving DecidableEq, Repr

/-- Why a step of the model stops in a fault. -/
inductive Fault where
  /-- R112: raised by `step` in a state that the spec's own mark `fault` has frozen, "the engine
  takes no step". Safe: the hardware goes on and the model says nothing of it (log entry 6). -/
  | frozen (k : FaultKind)
  /-- R40: raised by `step` where the cell being processed does not exist. Safe: no run reaches it
  (log entry 9). -/
  | noCell
  /-- R21: raised by the compute and write-back stages where the staging slot is filled in part.
  Safe: the slot is written whole, so no run reaches it (log entry 10). -/
  | brokenSlot
  deriving DecidableEq, Repr

/-- Why a step of the model is refused. -/
inductive Refusal where
  /-- An instruction without a meaning, by its mnemonic; no arm of `exec` answers it. Safe. -/
  | notModelled (mnemonic : String)
  /-- R112: raised by `step` in a state that the spec's own mark `refused` has frozen. Safe: the
  hardware goes on and the model says nothing of it (log entry 6). -/
  | frozen (k : RefusalKind)
  deriving DecidableEq, Repr

/-- R13: the state of the CORE. The last field carries the parameters of R5 (log entries 2, 3). -/
structure State where
  /-- R26, R38: the instruction memory; a cell's address is its 0-based position (R39). -/
  mem : List MemCell
  /-- R15: one entry for each name of `AVAIL`, in its order; `none` is "uninitialized". -/
  x : List (RegName × Option Reg)
  /-- R16: the control pointer, always present. -/
  cp : Reg
  /-- R19: the instruction register. -/
  ir : Option InstrReg
  /-- R20: the busy flag of the bus. -/
  busActive : Bool
  /-- R20: the status message of the bus. -/
  busMessage : Text
  /-- R23: the length of one cycle in milliseconds. -/
  cycleTime : Option Nat
  /-- R21: the write target of the staged operation. -/
  currentTarget : Option RegName
  /-- R21: the staged operation. -/
  pendingOpcode : Option AluOp
  /-- R21: the staged first operand. -/
  pendingOperandOne : Option Num64
  /-- R21: the staged second operand. -/
  pendingOperandTwo : Option Num64
  /-- R21, R95: the computed result. -/
  pendingResult : Option Num64
  /-- R25: where the engine stands. -/
  phase : Phase
  /-- R24: the sequencer index, the address of the cell being processed or next to fetch. -/
  seq : Nat
  /-- R35, R110: the mark of a model fault. -/
  fault : Option FaultKind
  /-- R35, R111: the mark of a refusal. -/
  refused : Option RefusalKind
  /-- R5, R27: the parameters; no step and no load writes them. -/
  params : Params
  deriving DecidableEq, Repr

/-- R29: the state after reset. `AVAIL` is empty here until the host supplies one (R27 allows the
empty set; log entry 2, DESIGN CHOICE); the other two parameters have the values of R5. -/
def State.reset : State where
  mem := []
  x := []
  cp := ⟨.direct, 0#64⟩
  ir := none
  busActive := false
  busMessage := []
  cycleTime := none
  currentTarget := none
  pendingOpcode := none
  pendingOperandOne := none
  pendingOperandTwo := none
  pendingResult := none
  phase := .idle
  seq := 0
  fault := none
  refused := none
  params := ⟨[], false, false⟩

end Sys2Proof.Machine
end

