-- ==== Sys2Proof/Machine/Operands.lean ====
section
/-! DEFINITION. The operand forms: the register and address-pattern checks on operand-one (R57, R58)
and the classes of operand-two (R59, R60). -/

namespace Sys2Proof.Machine

/-- R9: the reserved name of the control pointer. -/
def cpName : RegName := "CP".toList

/-- R57: `isReg(a) := a ∈ AVAIL ∨ a = "CP"`. -/
abbrev State.isReg (s : State) (a : RegName) : Prop :=
  a ∈ s.params.avail ∨ a = cpName

/-- R58: `isAddr(a)`, at least one ASCII digit. -/
def isAddr (a : Token) : Bool := a.any isDigit

/-- R59: the classes of an operand-two token. -/
inductive LitClass where
  | lit (v : Int)
  | zero
  | nonNumeric
  | unsettled
  deriving DecidableEq, Repr

/-- R5: `LIT_MAX = 2^53`. -/
def litMax : Nat := 2 ^ 53

/-- The value of a string of decimal digits (R60). -/
def digitsValue (ds : Text) : Nat :=
  ds.foldl (fun n c => 10 * n + (c.toNat - 48)) 0

/-- `[0-9]+` and its value. -/
def parseDigits (ds : Text) : Option Nat :=
  if !ds.isEmpty && ds.all isDigit then some (digitsValue ds) else none

/-- R59: `[+-]?[0-9]+` and its decimal value. -/
def parseInt : Token → Option Int
  | '+' :: ds => (parseDigits ds).map (fun n => (n : Int))
  | '-' :: ds => (parseDigits ds).map (fun n => -(n : Int))
  | ds => (parseDigits ds).map (fun n => (n : Int))

/-- R59: the three spellings that hold no digit and are still not `NonNumeric`. -/
def infinitySpellings : List Token :=
  ["Infinity".toList, "+Infinity".toList, "-Infinity".toList]

/-- R59: `classify(b)`. -/
def classify (b : Token) : LitClass :=
  match parseInt b with
  | some v => if v = 0 then .zero else if v.natAbs ≤ litMax then .lit v else .unsettled
  | none => if isAddr b || infinitySpellings.contains b then .unsettled else .nonNumeric

/-- R15: the entry of a name, `none` where the name has none or is uninitialized. -/
def lookupReg : List (RegName × Option Reg) → RegName → Option Reg
  | [], _ => none
  | (k, r) :: rest, n => if k = n then r else lookupReg rest n

/-- R15: `x[n]`. -/
def State.readReg (s : State) (n : RegName) : Option Reg := lookupReg s.x n

/-- R91: the value of operand-one, from `CP` or from the register file. -/
def State.readOperand (s : State) (a : RegName) : Option Num64 :=
  if a = cpName then some s.cp.value else (s.readReg a).map (·.value)

end Sys2Proof.Machine
end

