-- ==== Sys2Proof/Machine/Ops.lean ====
section
/-! DEFINITION. The named operations on the state: memory (R40 to R42), registers (R15, R96), the bus
latch (R67), the staging slot (R91), the marks that stop the model (R110, R111) and the start of a
cell (R80). Taking an exception: this hardware has none (R107, R114); raising a mark is the only way
the sequence is left. -/

namespace Sys2Proof.Machine

/-- What a step, a meaning or a shared operation answers. -/
abbrev Result := Host.Outcome State Fault Refusal

/-! ### Memory -/

/-- R38: the cell a line is kept in. -/
def MemCell.ofLine (l : Text) : MemCell := ⟨.immediate, l⟩

/-- R42: the memory image of a program text. -/
def buildImage (p : Text) : List MemCell := (programLines p).map MemCell.ofLine

/-- R40: `MemRead(i, 1)`; `none` is an address that does not exist. -/
def State.memRead (s : State) (i : Nat) : Option Text := (s.mem[i]?).map (·.value)

/-- R38: every cell holds a non-empty line under the tag `IMMEDIATE`. -/
def Memory.wf (m : List MemCell) : Bool :=
  m.all (fun c => decide (c.address = .immediate) && isCellText c.value)

/-! ### Registers -/

/-- R15: `x[n] <- v`. A name without an entry is not written (R17). -/
def State.writeReg (s : State) (n : RegName) (v : Num64) : State :=
  { s with x := s.x.map (fun e => if e.1 = n then (e.1, some ⟨.direct, v⟩) else e) }

/-- R96: the write-back, to `CP` or to a named register, always `direct`. -/
def State.writeTarget (s : State) (n : RegName) (r : Num64) : State :=
  if n = cpName then { s with cp := ⟨.direct, r⟩ } else s.writeReg n r

/-! ### The bus latch -/

/-- R67: assert busy with a message. -/
def State.busAssert (s : State) (m : Text) : State :=
  { s with busActive := true, busMessage := m }

/-- R67: release the bus. -/
def State.busRelease (s : State) : State :=
  { s with busActive := false, busMessage := [] }

/-! ### The staging slot -/

/-- R91: the four staged fields are written together. -/
def State.stage (s : State) (op : AluOp) (x y : Num64) (a : RegName) : State :=
  { s with
    pendingOpcode := some op
    pendingOperandOne := some x
    pendingOperandTwo := some y
    currentTarget := some a }

/-- R92: the memory-address-resolution path, a deliberate no-op taken when `isAddr(a)` holds. -/
def State.addressPath (s : State) (a : RegName) : State :=
  if isAddr a then s else s

/-! ### Where the model stops -/

/-- R110: `raise ModelFault(k)`: the state is marked and otherwise kept as it stands. -/
def State.raiseFault (s : State) (k : FaultKind) : State := { s with fault := some k }

/-- R111: `refuse(k)`. -/
def State.refuse (s : State) (k : RefusalKind) : State := { s with refused := some k }

/-- R112: neither mark is set. -/
abbrev State.Live (s : State) : Prop := s.fault = none ∧ s.refused = none

/-! ### Cells -/

/-- R25: the cell a phase names. -/
def Phase.cellIndex : Phase → Option Nat
  | .idle => none
  | .fetchHold i => some i
  | .resolveHold i _ _ _ _ => some i
  | .computeHold i _ => some i

/-- The `i` of R80's rows: the cell of the phase, or the sequencer index in `Idle`. -/
def State.cell (s : State) : Nat := s.phase.cellIndex.getD s.seq

/-- R80: at the resolve hold of an ALU dispatch with the accepted literal `v`. -/
def State.atResolve (s : State) (w : Which) (op : AluOp) (a : RegName) (b : Token) (v : Int) :
    State :=
  { s with
    busActive := true
    busMessage := Config.msgResolve op a b
    phase := .resolveHold s.cell w op a (ofInt v) }

/-- R80, R95: at the compute hold of a slot `(op, x, y)` with target `t`. -/
def State.atCompute (s : State) (w : Which) (op : AluOp) (x y : Num64) (t : RegName) : State :=
  { s with
    busActive := true
    busMessage := Config.msgCompute t
    pendingResult := some (alu op x y)
    phase := .computeHold s.cell w }

/-- R80: `StartCell(i)`, which ends the run past the last cell (R81). -/
def State.startCell (s : State) (i : Nat) : State :=
  match s.memRead i with
  | none => { s with seq := i, phase := .idle }
  | some l =>
    { s with
      seq := i
      busActive := true
      busMessage := Config.msgFetch l
      phase := .fetchHold i }

/-- R71: the end of the fetch transfer: release the bus, then write `IR`. -/
def State.fetched (s : State) (l : Text) : State :=
  { s.busRelease with ir := some ⟨.direct, l⟩ }

end Sys2Proof.Machine
end

