-- ==== Sys2Proof/Machine/Alu.lean ====
section
/-! DEFINITION. The ALU path: dispatch, resolve, compute and write-back at the level of holds (R80,
R88 to R96), `IncrementCP` (R77), and the meanings of `add`, `sub`, `mul` and `div` (R99 to R102).
A meaning is applied to the state in which the fetch hold of the line is released and `IR` written;
it answers the state at the next hold, and `step` goes on from there. -/

namespace Sys2Proof.Machine

/-- R80 `StartCompute`, R95: up to the compute hold. It computes from the slot as it stands, fresh or
stale (R22, R94). -/
def startCompute (w : Which) (s : State) : Result :=
  match s.pendingOpcode, s.pendingOperandOne, s.pendingOperandTwo, s.currentTarget with
  | none, _, _, _ => .next (s.raiseFault .emptyStaging)
  | some op, some x, some y, some t => .next (s.atCompute w op x y t)
  | _, _, _, _ => .fault .brokenSlot

/-- R80 `Dispatch_w`, R88 to R94: up to the first hold of an ALU dispatch. -/
def dispatchAlu (w : Which) (op : AluOp) (a : RegName) (b : Token) (s : State) : Result :=
  if s.isReg a then
    match classify b with
    | .lit v => .next (s.atResolve w op a b v)
    | .unsettled => .next (s.refuse .unsettledLiteral)
    | .zero => startCompute w (s.addressPath a)
    | .nonNumeric => startCompute w (s.addressPath a)
  else startCompute w (s.addressPath a)

/-- R77: the operand-two of the synthesized `add CP 1`. -/
def oneToken : Token := ['1']

/-- R77: `IncrementCP`, `AluDispatch("add", "CP", "1", Inc)`. -/
def incrementCP (s : State) : Result := dispatchAlu .inc .add cpName oneToken s

/-- R80, the row `ResolveHold`; R91: release the bus, read operand-one, stage, start to compute. -/
def resolveRelease (w : Which) (op : AluOp) (a : RegName) (v : Num64) (s : State) : Result :=
  match s.busRelease.readOperand a with
  | none => .next (s.busRelease.raiseFault .uninitializedRead)
  | some x => startCompute w ((s.busRelease.stage op x v a).addressPath a)

/-- R95, R96: the end of the compute transfer: release the bus and write `pendingResult` to
`currentTarget`; `none` where the slot lacks one of them. -/
def writeback (s : State) : Option State :=
  match s.currentTarget, s.pendingResult with
  | some t, some r => some (s.busRelease.writeTarget t r)
  | _, _ => none

/-- R80, the two rows `ComputeHold`: after the write-back, `IncrementCP` for the instruction's own
dispatch and the next cell for `IncrementCP`'s. -/
def computeRelease (i : Nat) (w : Which) (s : State) : Result :=
  match writeback s with
  | none => .fault .brokenSlot
  | some t =>
    match w with
    | .main => incrementCP t
    | .inc => if i < t.mem.length then .next (t.startCell (i + 1)) else .fault .noCell

/-- R99: `add a b`. -/
def execAdd (a : RegName) (b : Token) (s : State) : Result := dispatchAlu .main .add a b s

/-- R100: `sub a b`. -/
def execSub (a : RegName) (b : Token) (s : State) : Result := dispatchAlu .main .sub a b s

/-- R101: `mul a b`. -/
def execMul (a : RegName) (b : Token) (s : State) : Result := dispatchAlu .main .mul a b s

/-- R102: `div a b`. -/
def execDiv (a : RegName) (b : Token) (s : State) : Result := dispatchAlu .main .div a b s

end Sys2Proof.Machine
end

