-- ==== Sys2Proof/Machine/Move.lean ====
section
/-! DEFINITION. `mov` (41_register_move.md R83 to R86). -/

namespace Sys2Proof.Machine

/-- R83: `mov a b`, then `IncrementCP` (R77). It takes no bus transfer of its own (R86). -/
def execMov (a : RegName) (b : Token) (s : State) : Result :=
  if a ∈ s.params.avail then
    match classify b with
    | .lit v => incrementCP (s.writeReg a (ofInt v))
    | .unsettled => .next (s.refuse .unsettledLiteral)
    | .zero => incrementCP s
    | .nonNumeric => incrementCP s
  else incrementCP s

end Sys2Proof.Machine
end

