-- ==== Sys2Proof/Machine/NoOp.lean ====
section
/-! DEFINITION. The two decode classes without an action of their own (R73, R75). -/

namespace Sys2Proof.Machine

/-- R73: the decode skip, no action; `IncrementCP` follows. -/
def execDecodeSkip (s : State) : Result := incrementCP s

/-- R75: the unknown-opcode no-op; the operands are never examined; `IncrementCP` follows. -/
def execUnknownOpcode (s : State) : Result := incrementCP s

end Sys2Proof.Machine
end

