-- ==== Sys2Proof/Machine/Dispatch.lean ====
section
/-! DEFINITION. Dispatch by constructor (R74): one arm per row of the opcode table. -/

namespace Sys2Proof.Machine

def exec (i : Instr) (s : State) : Host.Outcome State Fault Refusal :=
  match i with
  | .mov a b => Sys2Proof.Machine.execMov a b s
  | .add a b => Sys2Proof.Machine.execAdd a b s
  | .sub a b => Sys2Proof.Machine.execSub a b s
  | .mul a b => Sys2Proof.Machine.execMul a b s
  | .div a b => Sys2Proof.Machine.execDiv a b s
  | .decodeSkip _ => Sys2Proof.Machine.execDecodeSkip s
  | .unknownOpcode _ _ _ => Sys2Proof.Machine.execUnknownOpcode s

end Sys2Proof.Machine
end

