-- ==== Sys2Proof/Machine/Step.lean ====
section
/-! DEFINITION. One step of the engine, from one hold to the next (R80), and where an instruction is
placed so that the next step runs it. -/

namespace Sys2Proof.Machine

/-- R80: the engine's step relation. A marked state takes no step (R112); `Idle` waits for a load
with all state kept (R121, log entry 7). -/
def step (s : State) : Host.Outcome State Fault Refusal :=
  match s.fault, s.refused with
  | some k, _ => .fault (.frozen k)
  | none, some k => .refused (.frozen k)
  | none, none =>
    match s.phase with
    | .idle => .next s
    | .fetchHold i =>
      match s.memRead i with
      | none => .fault .noCell
      | some l =>
        match decode s.params.tokenizeStrict l with
        | .error .nonCanonicalLine => .next ((s.fetched l).refuse .nonCanonicalLine)
        | .ok ins => exec ins (s.fetched l)
    | .resolveHold _ w op a v => resolveRelease w op a v s
    | .computeHold i w => computeRelease i w s

/-- `s` with the line of a numbered instruction as the cell that the next step releases from its
fetch hold (log entry 8). In a fetch hold of an existing cell that cell is replaced; otherwise the
line is the whole memory, started at cell 0 as a load leaves it. -/
def State.withFetchWord (s : State) (nbits w : Nat) : State :=
  let l := textOfBits nbits w
  let single : State :=
    { s with mem := [MemCell.ofLine l], cycleTime := some (s.cycleTime.getD 1) }
  let placed : State :=
    match s.phase with
    | .fetchHold i =>
      if i < s.mem.length then { s with mem := s.mem.set i (MemCell.ofLine l) }.startCell i
      else single.startCell 0
    | _ => single.startCell 0
  { placed with fault := none, refused := none }

end Sys2Proof.Machine
end

