-- ==== Sys2Proof/Machine/HostOps.lean ====
section
/-! DEFINITION. What the host can do (R135): create an instance with a configuration (R27, R123), load
a program (R128 to R134) and read the snapshot (R33). These are no steps of the engine. -/

namespace Sys2Proof.Machine

/-- R27: every name is a token and none is `"CP"`. -/
def availOk (avail : List RegName) : Bool :=
  avail.all (fun n => isToken n && !(n == cpName))

/-- R123, R27: a new instance under a configuration: the reset state of R29 with one uninitialized
register for each name, or marked `BadConfig` (R111). -/
def State.create (avail : List RegName) (tokenizeStrict clearOnLoad : Bool) : State :=
  if availOk avail then
    { State.reset with
      x := avail.dedup.map (fun n => (n, none))
      params := ⟨avail.dedup, tokenizeStrict, clearOnLoad⟩ }
  else { State.reset with params := ⟨[], tokenizeStrict, clearOnLoad⟩ }.refuse .badConfig

/-- R127: `x`, `CP`, `IR` and the staging slot at their values of R29. -/
def State.clearRegisters (s : State) : State :=
  { s with
    x := s.params.avail.map (fun n => (n, none))
    cp := State.reset.cp
    ir := none
    currentTarget := none
    pendingOpcode := none
    pendingOperandOne := none
    pendingOperandTwo := none
    pendingResult := none }

/-- R129, R127: what every accepted load does first. With the memory empty, `seq` is 0: it "is never
more than `len(mem)`" (R24, R30 item 5; log entry 14, DEDUCED). -/
def State.loadClear (s : State) : State :=
  let t : State := { s with mem := [], seq := 0 }
  if s.params.clearOnLoad then t.clearRegisters else t

/-- R128: `loadProgram(P, T)`, atomic. -/
def State.loadProgram (s : State) (p : Text) (t : Nat) : State :=
  if s.fault.isSome || s.refused.isSome then s
  else if s.phase ≠ .idle then s.refuse .reloadRace
  else if p.isEmpty || t == 0 then s.loadClear
  else { s.loadClear with cycleTime := some t, mem := buildImage p }.startCell 0

/-- R33: what the CORE shows. -/
structure Snapshot where
  mem        : List (Nat × Text)
  x          : List (RegName × Option Reg)
  cp         : Reg
  busActive  : Bool
  busMessage : Text
  ir         : Option InstrReg
  deriving DecidableEq, Repr

/-- R33: each cell is shown under its position (R38, R39). -/
def State.snapshot (s : State) : Snapshot where
  mem := s.mem.zipIdx.map (fun e => (e.2, e.1.value))
  x := s.x
  cp := s.cp
  busActive := s.busActive
  busMessage := s.busMessage
  ir := s.ir

end Sys2Proof.Machine
end

