-- ==== Sys2Proof/Machine/Procedures.lean ====
section
/-! DEFINITION. The procedures of R67, R71 to R78, R83, R88, R95 and R96, each run to its end with
`Hold()` as the passing of one cycle that changes no state. R80 says that they and the step table
describe the same sequence of actions; `step` follows the table, and the two meet in the statements. -/

namespace Sys2Proof.Machine

/-- The next statement of a procedure runs only while neither mark is set (R112). -/
def afterLive (r : Result) (f : State → Result) : Result :=
  match r with
  | .next s => if s.Live then f s else .next s
  | .fault k => .fault k
  | .refused k => .refused k

/-- R67: `BusTransfer(m)`, from assert to release. -/
def busTransfer (m : Text) (s : State) : State := (s.busAssert m).busRelease

/-- R95: `ComputeAndWriteback()`. -/
def computeAndWriteback (s : State) : Result :=
  match s.pendingOpcode, s.pendingOperandOne, s.pendingOperandTwo, s.currentTarget with
  | none, _, _, _ => .next (s.raiseFault .emptyStaging)
  | some op, some x, some y, some t =>
    let r := alu op x y
    .next (({ s.busAssert (Config.msgCompute t) with pendingResult := some r }).busRelease.writeTarget t r)
  | _, _, _, _ => .fault .brokenSlot

/-- R88, R89 to R91: the register-resolution path. -/
def resolvePath (op : AluOp) (a : RegName) (b : Token) (s : State) : State :=
  if s.isReg a then
    match classify b with
    | .lit v =>
      let t := busTransfer (Config.msgResolve op a b) s
      match t.readOperand a with
      | some x => t.stage op x (ofInt v) a
      | none => t.raiseFault .uninitializedRead
    | .unsettled => s.refuse .unsettledLiteral
    | .zero => s
    | .nonNumeric => s
  else s

/-- R88: `AluDispatch(op, a, b, w)`; the tag `w` has no effect on the computation (R87). -/
def aluDispatch (op : AluOp) (a : RegName) (b : Token) (s : State) : Result :=
  afterLive (.next (resolvePath op a b s)) (fun t => computeAndWriteback (t.addressPath a))

/-- R83: `Mov(a, b)`. -/
def movProcedure (a : RegName) (b : Token) (s : State) : State :=
  if a ∈ s.params.avail then
    match classify b with
    | .lit v => s.writeReg a (ofInt v)
    | .unsettled => s.refuse .unsettledLiteral
    | .zero => s
    | .nonNumeric => s
  else s

/-- R74: `Dispatch(d)`. -/
def dispatch (d : Instr) (s : State) : Result :=
  match d with
  | .decodeSkip _ => .next s
  | .mov a b => .next (movProcedure a b s)
  | .add a b => aluDispatch .add a b s
  | .sub a b => aluDispatch .sub a b s
  | .mul a b => aluDispatch .mul a b s
  | .div a b => aluDispatch .div a b s
  | .unknownOpcode _ _ _ => .next s

/-- R72: the decode stage, then R74 and R77. -/
def decodeAndDispatch (l : Text) (s : State) : Result :=
  match decode s.params.tokenizeStrict l with
  | .error .nonCanonicalLine => .next (s.refuse .nonCanonicalLine)
  | .ok d => afterLive (dispatch d s) (aluDispatch .add cpName oneToken)

/-- R76: `ExecuteCell(i)`: fetch (R71), decode, dispatch, `IncrementCP`. -/
def executeCell (i : Nat) (s : State) : Result :=
  match s.memRead i with
  | none => .fault .noCell
  | some l =>
    decodeAndDispatch l { busTransfer (Config.msgFetch l) s with ir := some ⟨.direct, l⟩ }

/-- R78: the loop of `Run()` over `n` cells from `seq` on. -/
def runCells : Nat → State → Result
  | 0, s => .next { s with phase := .idle }
  | n + 1, s =>
    afterLive (executeCell s.seq s) (fun t => runCells n { t with seq := t.seq + 1 })

end Sys2Proof.Machine
end

