-- ==== Sys2Proof/Safety.lean ====
section
/-! DEFINITION. The terms the statements use: which states are well-formed (R21, R30), which values
they can hold (R106), what the staging slot holds between cells (R104, R136), the end of a run (R81),
the states a host and the engine can reach together, and numeric facts about binary64 (R98). -/

namespace Sys2Proof.Machine

/-- R30 items 1, 2, 3 and 5, R21, R23, R24, R27 and R38: what holds in every reachable state. -/
structure State.Wf (s : State) : Prop where
  availOk : availOk s.params.avail = true
  availNodup : s.params.avail.Nodup
  regNames : s.x.map Prod.fst = s.params.avail
  regsDirect : ∀ e ∈ s.x, ∀ r ∈ e.2, r.addressType = .direct
  cpDirect : s.cp.addressType = .direct
  targetReg : ∀ t ∈ s.currentTarget, s.isReg t
  slotWhole : s.pendingOpcode.isSome → s.pendingOperandOne.isSome ∧ s.pendingOperandTwo.isSome
    ∧ s.currentTarget.isSome
  cyclePos : ∀ t ∈ s.cycleTime, 0 < t
  memWf : Memory.wf s.mem = true
  seqLe : s.seq ≤ s.mem.length
  seqLt : s.phase ≠ .idle → s.seq < s.mem.length

/-- R59, R106 item 1: the value of an accepted literal. -/
def IsLiteral (v : Num64) : Prop := ∃ n : Int, n ≠ 0 ∧ n.natAbs ≤ litMax ∧ v = ofInt n

/-- The slot computes to `r` and goes to `t`. -/
def State.SlotIs (s : State) (op : AluOp) (x y r : Num64) (t : RegName) : Prop :=
  s.pendingOpcode = some op ∧ s.pendingOperandOne = some x ∧ s.pendingOperandTwo = some y
    ∧ s.pendingResult = some r ∧ s.currentTarget = some t

/-- R21, R29: no field of the slot holds a value. -/
def State.SlotEmpty (s : State) : Prop :=
  s.pendingOpcode = none ∧ s.pendingOperandOne = none ∧ s.pendingOperandTwo = none
    ∧ s.pendingResult = none ∧ s.currentTarget = none

/-- R25, R30 items 4 and 6: the bus and the phase agree, and a phase names the cell being processed.
-/
def State.PhaseOk (s : State) : Prop :=
  match s.phase with
  | .idle => s.busActive = false ∧ s.busMessage = []
  | .fetchHold i =>
    s.busActive = true ∧ s.cycleTime.isSome ∧ i = s.seq
      ∧ s.busMessage = Config.msgFetch ((s.memRead i).getD [])
  | .resolveHold i w op a v =>
    s.busActive = true ∧ s.cycleTime.isSome ∧ i = s.seq ∧ s.isReg a
      ∧ IsLiteral v ∧ (w = .inc → op = .add ∧ a = cpName ∧ v = ofInt 1)
  | .computeHold i w =>
    s.busActive = true ∧ s.cycleTime.isSome ∧ i = s.seq
      ∧ (∃ op x y t, s.SlotIs op x y (alu op x y) t ∧ s.busMessage = Config.msgCompute t)
      ∧ (w = .inc → s.SlotIs .add s.cp.value (ofInt 1) (alu .add s.cp.value (ofInt 1)) cpName)

/-- R30: the invariant of every reachable state; the phase clauses are about states that no mark has
frozen between two holds (C14). -/
def State.Inv (s : State) : Prop := s.Wf ∧ (s.Live → s.PhaseOk)

/-- R106 items 1 and 2: what registers and slot can hold. -/
structure State.ValuesOk (s : State) : Prop where
  regs : ∀ e ∈ s.x, ∀ r ∈ e.2, isNaN r.value = false
  cp : isNaN s.cp.value = false
  one : ∀ v ∈ s.pendingOperandOne, isNaN v = false
  two : ∀ v ∈ s.pendingOperandTwo, IsLiteral v
  result : ∀ v ∈ s.pendingResult, isNaN v = false

/-- R104: the slot is empty, or holds the last `IncrementCP`, whose result `CP` holds. -/
def State.SlotIsIncrement (s : State) : Prop :=
  s.SlotEmpty ∨ ∃ c, s.SlotIs .add c (ofInt 1) (alu .add c (ofInt 1)) cpName
    ∧ s.cp.value = alu .add c (ofInt 1)

/-- R104, R136: in `Idle`, at a fetch and until the cell's own dispatch stages, the slot is what the
last `IncrementCP` left. -/
def State.SlotInv (s : State) : Prop :=
  match s.phase with
  | .idle => s.SlotIsIncrement
  | .fetchHold _ => s.SlotIsIncrement
  | .resolveHold _ .main _ _ _ => s.SlotIsIncrement
  | .resolveHold _ .inc _ _ _ => True
  | .computeHold _ _ => True

/-- R81: the final state of a run. -/
def State.Final (s : State) : Prop :=
  s.Live ∧ s.phase = .idle ∧ s.seq = s.mem.length ∧ s.busActive = false ∧ s.busMessage = []

/-- `k` cycles of the engine (R68, R80), stopping at the first fault or refusal. -/
def steps : Nat → State → Result
  | 0, s => .next s
  | k + 1, s =>
    match step s with
    | .next t => steps k t
    | .fault f => .fault f
    | .refused f => .refused f

/-- R12, R135: the states that creation, the engine's steps and the host's loads lead to. -/
inductive Reachable : State → Prop where
  | create (avail : List RegName) (tokenizeStrict clearOnLoad : Bool) :
      Reachable (State.create avail tokenizeStrict clearOnLoad)
  | step {s t : State} (h : Reachable s) (hs : step s = .next t) : Reachable t
  | load {s : State} (h : Reachable s) (p : Text) (n : Nat) : Reachable (s.loadProgram p n)

/-- The ALU instruction of an operation (R62). -/
def aluInstr : AluOp → RegName → Token → Instr
  | .add => .add
  | .sub => .sub
  | .mul => .mul
  | .div => .div

/-- R91: the line's register path is accepted. -/
def State.Accepts (s : State) (a : RegName) (b : Token) : Prop :=
  s.isReg a ∧ ∃ v, classify b = .lit v

/-- R90, R94: the line's register path is rejected or not taken, and nothing is refused. -/
def State.Rejects (s : State) (a : RegName) (b : Token) : Prop :=
  ¬ s.isReg a ∨ classify b = .zero ∨ classify b = .nonNumeric

/-- R99 to R102, with R90, R91 and R94: what an ALU instruction `mk a b` of operation `op` does from
the state in which its fetch hold is released. Accepted: resolve hold, compute hold, and the
write-back of `a ← a op b`, after which `IncrementCP` is at its resolve hold. Not accepted: the model
fault of an uninitialized operand, the refusal of an unsettled literal, the stale compute, or the
model fault of an empty slot. -/
def AluRule (mk : RegName → Token → Instr) (op : AluOp) : Prop :=
  ∀ (s : State) (a : RegName) (b : Token), s.Live →
    (∀ v x, s.isReg a → classify b = .lit v → s.readOperand a = some x →
      exec (mk a b) s = .next (s.atResolve .main op a b v) ∧
      step (s.atResolve .main op a b v) =
        .next ((s.stage op x (ofInt v) a).atCompute .main op x (ofInt v) a) ∧
      step ((s.stage op x (ofInt v) a).atCompute .main op x (ofInt v) a) =
        .next (({ s.stage op x (ofInt v) a with
            pendingResult := some (alu op x (ofInt v)) }.writeTarget a (alu op x (ofInt v))).atResolve
              .inc .add cpName oneToken 1)) ∧
    (∀ v, s.isReg a → classify b = .lit v → s.readOperand a = none →
      exec (mk a b) s = .next (s.atResolve .main op a b v) ∧
      step (s.atResolve .main op a b v) =
        .next (((s.atResolve .main op a b v).busRelease).raiseFault .uninitializedRead)) ∧
    (s.isReg a → classify b = .unsettled →
      exec (mk a b) s = .next (s.refuse .unsettledLiteral)) ∧
    (∀ op' x y t, s.Rejects a b → s.pendingOpcode = some op' → s.pendingOperandOne = some x →
      s.pendingOperandTwo = some y → s.currentTarget = some t →
      exec (mk a b) s = .next (s.atCompute .main op' x y t)) ∧
    (s.Rejects a b → s.pendingOpcode = none →
      exec (mk a b) s = .next (s.raiseFault .emptyStaging))

/-- R98 item 2: `d` is the whole number `n`. -/
def IsWhole (d : Num64) (n : Int) : Prop := isFinite d = true ∧ scaled d = n * (oneUnits : Int)

/-- The least magnitude, in units of `scaled`, that rounds past the largest finite datum (R98 item 1):
`(2^53 - 1/2) * 2^971`. -/
def overflowUnits : Nat := (2 ^ 54 - 1) * 2 ^ 2044

/-- How far `z` is from the exact result of an operation on finite operands, times a positive factor
that depends on the operands alone; the units are those of `scaled`. -/
def exactError (op : AluOp) (x y z : Num64) : Nat :=
  match op with
  | .add => (scaled z - (scaled x + scaled y)).natAbs
  | .sub => (scaled z - (scaled x - scaled y)).natAbs
  | .mul => (scaled z * oneUnits - scaled x * scaled y).natAbs
  | .div => (scaled z * scaled y - scaled x * oneUnits).natAbs

/-- R143's premise about a cell: it is no accepted ALU instruction on `CP`. -/
def leavesCP (strict : Bool) (l : Text) : Prop :=
  ∀ op : AluOp, ∀ b v, decode strict l = .ok (aluInstr op cpName b) → classify b ≠ .lit v

end Sys2Proof.Machine
end

