-- ==== Sys2Proof/Certificates/Slice0/Obligations.lean ====
section
/-! DEFINITION. The statements for the provers. Each docstring names the sentence of the spec it says. -/

open Sys2Proof Sys2Proof.Machine

/-! ### Text, decoding and encoding -/

/-- Words of every row of the opcode table, from V-TOK-1 to V-TOK-7 and programs P2 and P3. -/
def Obligations.TableRowsDecode : Prop :=
  decode false "mov A 5".toList = .ok (.mov "A".toList "5".toList) ∧
  decode false "  mov\tA   5 ".toList = .ok (.mov "A".toList "5".toList) ∧
  decode true "  mov\tA   5 ".toList = .error .nonCanonicalLine ∧
  decode false "add A 2".toList = .ok (.add "A".toList "2".toList) ∧
  decode false "sub R1 0".toList = .ok (.sub "R1".toList "0".toList) ∧
  decode false "  mul   A   -1   extra".toList = .ok (.mul "A".toList "-1".toList) ∧
  decode false "div R1 4".toList = .ok (.div "R1".toList "4".toList) ∧
  decode false "mov A".toList = .ok (.decodeSkip ["mov".toList, "A".toList]) ∧
  decode false "MOV A 5".toList = .ok (.unknownOpcode "MOV".toList "A".toList "5".toList) ∧
  decode false "jmp 0 0".toList = .ok (.unknownOpcode "jmp".toList "0".toList "0".toList)

/-- R51, R53, R62: no field of an encoding is dropped: the line of a well-formed instruction decodes
to it, and under strict tokenizing too, but for the skip of no tokens, which has no canonical line. -/
def Obligations.EncodedInstructionsDecodeBack : Prop :=
  ∀ i : Instr, i.wf = true →
    decode false (encode i) = .ok i ∧ (i ≠ .decodeSkip [] → decode true (encode i) = .ok i)

/-- R56, R72: "The decoder recognises exactly five opcode tokens"; the fields `t[0..2]` alone choose
the instruction, fewer than three tokens are a skip, and strict decoding refuses the lines that are not
canonical and differs in nothing else. -/
def Obligations.DecodeFollowsOpcodeMap : Prop :=
  ∀ l : Text,
    ((tokens l).length < 3 → decode false l = .ok (.decodeSkip (tokens l))) ∧
    (∀ op a b rest, tokens l = op :: a :: b :: rest →
      (op = "mov".toList → decode false l = .ok (.mov a b)) ∧
      (op = "add".toList → decode false l = .ok (.add a b)) ∧
      (op = "sub".toList → decode false l = .ok (.sub a b)) ∧
      (op = "mul".toList → decode false l = .ok (.mul a b)) ∧
      (op = "div".toList → decode false l = .ok (.div a b)) ∧
      (op ∉ opcodeTokens → decode false l = .ok (.unknownOpcode op a b))) ∧
    decode true l = if canonical l then decode false l else .error .nonCanonicalLine

/-- R52: "A run of several whitespace characters separates two tokens exactly as one whitespace
character does", and whitespace at the ends yields no token. The three clauses determine `tokens`. -/
def Obligations.TokensAreMaximalRuns : Prop :=
  (∀ l₁ w l₂ : Text, w ≠ [] → (∀ c ∈ w, isWS c = true) →
    tokens (l₁ ++ w ++ l₂) = tokens l₁ ++ tokens l₂) ∧
  (∀ t : Text, isToken t = true → tokens t = [t]) ∧
  (∀ l : Text, ∀ t ∈ tokens l, isToken t = true)

/-- R54: "On a canonical line, splitting at each single U+0020 gives the same tokens as rule R52". -/
def Obligations.CanonicalLinesSplitAtSpaces : Prop :=
  ∀ l : Text, l ≠ [] → canonical l = true → pieces (fun c => c == ' ') l = tokens l

/-- R59: the classes, by grammar and by value. -/
def Obligations.LiteralClassesByGrammar : Prop :=
  (∀ ds : Text, ds ≠ [] → (∀ c ∈ ds, isDigit c = true) → ∀ sign ∈ [[], ['+'], ['-']],
    classify (sign ++ ds) =
      if digitsValue ds = 0 then .zero
      else if digitsValue ds ≤ 2 ^ 53 then
        .lit (if sign = ['-'] then -(digitsValue ds : Int) else digitsValue ds)
      else .unsettled) ∧
  (∀ b : Token, (∀ c ∈ b, isDigit c = false) → b ∉ infinitySpellings →
    classify b = .nonNumeric) ∧
  (∀ b ∈ infinitySpellings, classify b = .unsettled) ∧
  (∀ b : Token, (∃ c ∈ b, isDigit c = true) →
    (∀ sign ∈ [[], ['+'], ['-']], ∀ ds : Text, b = sign ++ ds → ∃ c ∈ ds, isDigit c = false) →
    classify b = .unsettled)

/-- R41: "A program text `P` is split at every LF (U+000A) character into the maximal LF-free
substrings, in order", and "A line is empty when its length is 0", whatever else it holds; a line of
whitespace alone is kept and decodes as a skip. -/
def Obligations.ProgramLinesSplitAtLF : Prop :=
  (∀ l : Text, (∀ c ∈ l, isLF c = false) →
    programLines l = (if l = [] then [] else [l]) ∧
    ∀ p : Text, programLines (l ++ '\n' :: p) = (if l = [] then [] else [l]) ++ programLines p) ∧
  ∀ l : Text, (∀ c ∈ l, isWS c = true) → decode false l = .ok (.decodeSkip [])

/-! ### Arithmetic -/

/-- R7, R60: `toNum(v)` is exact for `|v| ≤ 2^53`. -/
def Obligations.LiteralsAreExact : Prop :=
  ∀ v : Int, v.natAbs ≤ litMax → IsWhole (ofInt v) v

/-- R98 item 2: whole operands whose exact result has magnitude at most 2^53 give that result. -/
def Obligations.WholeArithmeticIsExact : Prop :=
  ∀ (x y : Num64) (p q : Int), IsWhole x p → IsWhole y q →
    ((p + q).natAbs ≤ 2 ^ 53 → IsWhole (alu .add x y) (p + q)) ∧
    ((p - q).natAbs ≤ 2 ^ 53 → IsWhole (alu .sub x y) (p - q)) ∧
    ((p * q).natAbs ≤ 2 ^ 53 → IsWhole (alu .mul x y) (p * q))

/-- R98: "rounding to nearest with ties to even": a finite result is at least as near to the exact
result as any finite datum, and where another is as near, the result's significand is even. -/
def Obligations.AluRoundsToNearestEven : Prop :=
  ∀ (op : AluOp) (x y : Num64), isFinite x = true → isFinite y = true →
    (op = .div → isZero y = false) → isFinite (alu op x y) = true →
    ∀ z : Num64, isFinite z = true →
      exactError op x y (alu op x y) ≤ exactError op x y z ∧
      (exactError op x y (alu op x y) = exactError op x y z →
        scaled z ≠ scaled (alu op x y) → fracOf (alu op x y) % 2 = 0)

/-- R98 item 1: a finite result "too large in magnitude becomes ±Inf, with the sign of the exact
result": for each operation, exactly from half a unit in the last place past the largest finite datum
on. The exact product is `scaled x * scaled y` over `oneUnits` units, the exact quotient
`scaled x * oneUnits` over `scaled y` units. -/
def Obligations.ResultsOverflowToInfinity : Prop :=
  ∀ x y : Num64, isFinite x = true → isFinite y = true →
    (isInf (alu .add x y) = true ↔ overflowUnits ≤ (scaled x + scaled y).natAbs) ∧
    (isInf (alu .add x y) = true → signOf (alu .add x y) = decide (scaled x + scaled y < 0)) ∧
    (isInf (alu .sub x y) = true ↔ overflowUnits ≤ (scaled x - scaled y).natAbs) ∧
    (isInf (alu .sub x y) = true → signOf (alu .sub x y) = decide (scaled x - scaled y < 0)) ∧
    (isInf (alu .mul x y) = true ↔ overflowUnits * oneUnits ≤ (scaled x * scaled y).natAbs) ∧
    (isInf (alu .mul x y) = true → signOf (alu .mul x y) = decide (scaled x * scaled y < 0)) ∧
    (isZero y = false →
      (isInf (alu .div x y) = true ↔
        overflowUnits * (scaled y).natAbs ≤ (scaled x).natAbs * oneUnits) ∧
      (isInf (alu .div x y) = true → signOf (alu .div x y) = decide (scaled x * scaled y < 0)))

/-- R98 item 3: signs of products and quotients, and of zero sums. -/
def Obligations.SignsOfResults : Prop :=
  (∀ x y : Num64, isNaN (alu .mul x y) = false →
    signOf (alu .mul x y) = (signOf x != signOf y)) ∧
  (∀ x y : Num64, isNaN (alu .div x y) = false →
    signOf (alu .div x y) = (signOf x != signOf y)) ∧
  (∀ x : Num64, isFinite x = true → alu .sub x x = 0x0000000000000000#64) ∧
  (∀ x : Num64, isFinite x = true → alu .add x (negate x) = 0x0000000000000000#64) ∧
  alu .add 0x8000000000000000#64 0x8000000000000000#64 = 0x8000000000000000#64

/-- R98 items 5 and 6, R103: infinities, NaN and division by zero, whatever NaN a result is. -/
def Obligations.InfinitiesAndNaN : Prop :=
  (∀ op x y, isNaN x = true ∨ isNaN y = true → isNaN (alu op x y) = true) ∧
  (∀ x y, isInf x = true → isFinite y = true →
    alu .add x y = x ∧ alu .sub x y = x ∧ isInf (alu .div x y) = true ∧
    (isZero y = false → isInf (alu .mul x y) = true) ∧
    (isZero y = true → isNaN (alu .mul x y) = true)) ∧
  (∀ x y, isFinite x = true → isInf y = true →
    isZero (alu .div x y) = true ∧ alu .add x y = y ∧ alu .sub x y = negate y ∧
    (isZero x = false → isInf (alu .mul x y) = true) ∧
    (isZero x = true → isNaN (alu .mul x y) = true)) ∧
  (∀ x y, isInf x = true → isInf y = true → isNaN (alu .div x y) = true ∧
    isInf (alu .mul x y) = true ∧
    (if signOf x = signOf y then isNaN (alu .sub x y) = true ∧ alu .add x y = x
      else isNaN (alu .add x y) = true ∧ alu .sub x y = x)) ∧
  (∀ x y, isFinite x = true → isZero y = true →
    if isZero x then isNaN (alu .div x y) = true else isInf (alu .div x y) = true)

/-- R106 item 4: "`⊘` never overflows, because the divisor has magnitude at least 1", for every
divisor an instruction can stage. -/
def Obligations.DivisionByLiteralStaysFinite : Prop :=
  ∀ x y : Num64, isFinite x = true → IsLiteral y → isFinite (alu .div x y) = true

/-! ### Instructions -/

/-- R83: `mov`, every branch: the literal into a register of `AVAIL`, the aborted and the dropped
write, and the refusal; `IncrementCP` is then at its resolve hold. -/
def Obligations.MovRule : Prop :=
  ∀ (s : State) (a : RegName) (b : Token),
    (∀ v, a ∈ s.params.avail → classify b = .lit v →
      exec (.mov a b) s =
        .next ((s.writeReg a (ofInt v)).atResolve .inc .add cpName oneToken 1)) ∧
    (a ∈ s.params.avail → classify b = .unsettled →
      exec (.mov a b) s = .next (s.refuse .unsettledLiteral)) ∧
    (a ∈ s.params.avail → classify b = .zero ∨ classify b = .nonNumeric →
      exec (.mov a b) s = .next (s.atResolve .inc .add cpName oneToken 1)) ∧
    (a ∉ s.params.avail →
      exec (.mov a b) s = .next (s.atResolve .inc .add cpName oneToken 1))

/-- R83, R15: the register that an accepted `mov` writes reads as the literal's value, `direct`, and
every other register reads as before. -/
def Obligations.MovDestinationReadsLiteral : Prop :=
  ∀ (s : State) (a : RegName) (b : Token) (v : Int), s.Wf → a ∈ s.params.avail →
    classify b = .lit v →
    ∃ t, exec (.mov a b) s = .next t ∧ t.readReg a = some ⟨.direct, ofInt v⟩ ∧
      (∀ n, n ≠ a → t.readReg n = s.readReg n) ∧ t.cp = s.cp ∧ isZero (ofInt v) = false

/-- R85: "the write is dropped and no state changes" but by `IncrementCP`; `"CP"` is never in `AVAIL`,
so `mov CP v` is "a dropped write like any other name outside `AVAIL`". -/
def Obligations.MovOutsideAvailIsDropped : Prop :=
  ∀ s : State, s.Wf → cpName ∉ s.params.avail ∧
    ∀ (a : RegName) (b : Token), a ∉ s.params.avail →
      exec (.mov a b) s = .next (s.atResolve .inc .add cpName oneToken 1)

/-- R90: a rejected register path "stages nothing, starts no bus transfer and reads no register": the
path leaves the whole state as it is; the meaning of the line leaves the staged fields as they are,
goes straight to the compute hold (or to `EmptyStaging`) with no resolve hold before it, and does the
same whatever the registers and `CP` hold. What the line names makes no difference at all, and without
a register name `b` "is never classified". -/
def Obligations.RejectedOperandsAreIgnored : Prop :=
  (∀ (s : State) (op : AluOp) (a : RegName) (b : Token), s.Rejects a b →
    resolvePath op a b s = s ∧
    (∀ t, exec (aluInstr op a b) s = .next t →
      t.pendingOpcode = s.pendingOpcode ∧ t.pendingOperandOne = s.pendingOperandOne ∧
      t.pendingOperandTwo = s.pendingOperandTwo ∧ t.currentTarget = s.currentTarget ∧
      (t.phase = .computeHold s.cell .main ∨ t = s.raiseFault .emptyStaging) ∧
      ∀ x' cp', exec (aluInstr op a b) { s with x := x', cp := cp' } =
        .next { t with x := x', cp := cp' })) ∧
  (∀ (s : State) (op op' : AluOp) (a a' : RegName) (b b' : Token), s.Rejects a b → s.Rejects a' b' →
    exec (aluInstr op a b) s = exec (aluInstr op' a' b') s) ∧
  (∀ (s : State) (op : AluOp) (a : RegName) (b b' : Token), ¬ s.isReg a →
    exec (aluInstr op a b) s = exec (aluInstr op a b') s)

/-- R99: `add a b`, with the example of DOC0 §8, a sum that rounds and a sum out of range. -/
def Obligations.AddRule : Prop :=
  AluRule .add .add ∧ alu .add (ofInt 10) (ofInt 3) = ofInt 13 ∧
    alu .add (ofInt 10) (ofInt (-3)) = ofInt 7 ∧
    alu .add (ofInt 9007199254740992) (ofInt 1) = ofInt 9007199254740992 ∧
    alu .add 0x7FEFFFFFFFFFFFFF#64 0x7FEFFFFFFFFFFFFF#64 = 0x7FF0000000000000#64 ∧
    alu .add 0xFFEFFFFFFFFFFFFF#64 0xFFEFFFFFFFFFFFFF#64 = 0xFFF0000000000000#64

/-- R100: `sub a b`, with its example, its way to zero, and `sub CP 1` undone by `IncrementCP`. R100
calls that way to zero "the only way"; R102 names another (log entry 15), and nothing here says it. -/
def Obligations.SubRule : Prop :=
  AluRule .sub .sub ∧ alu .sub (ofInt 10) (ofInt 4) = ofInt 6 ∧
    alu .sub (ofInt 5) (ofInt 5) = 0x0000000000000000#64 ∧
    alu .sub (ofInt 10) (ofInt (-3)) = ofInt 13 ∧
    ∀ (c : Num64) (n : Int), IsWhole c n → n.natAbs < 2 ^ 53 →
      IsWhole (alu .add (alu .sub c (ofInt 1)) (ofInt 1)) n

/-- R101: `mul a b`, with its examples, the sign of a zero product and a product that rounds. -/
def Obligations.MulRule : Prop :=
  AluRule .mul .mul ∧ alu .mul (ofInt (-30)) (ofInt (-3)) = ofInt 90 ∧
    alu .mul 0x7E70000000000000#64 (ofInt 9007199254740992) = 0x7FF0000000000000#64 ∧
    alu .mul 0x7E70000000000000#64 (ofInt (-9007199254740992)) = 0xFFF0000000000000#64 ∧
    alu .mul 0x0000000000000000#64 (ofInt (-3)) = 0x8000000000000000#64 ∧
    IsWhole (alu .mul (ofInt 9007199254740991) (ofInt 3)) 27021597764222972

/-- R102: `div a b`, with its examples, the sign of a zero quotient and the way to zero. -/
def Obligations.DivRule : Prop :=
  AluRule .div .div ∧ alu .div (ofInt (-30)) (ofInt 4) = 0xC01E000000000000#64 ∧
    alu .div (ofInt 7) (ofInt 2) = 0x400C000000000000#64 ∧
    alu .div (ofInt (-7)) (ofInt 2) = 0xC00C000000000000#64 ∧
    alu .div 0x0000000000000000#64 (ofInt (-5)) = 0x8000000000000000#64 ∧
    alu .div 0x0010000000000000#64 (ofInt 2) = 0x0008000000000000#64 ∧
    alu .div 0x0000000000000001#64 (ofInt 2) = 0x0000000000000000#64

/-- R73: a decode skip has no action of its own and `IncrementCP` follows: three cycles from the fetch
hold, `CP` one higher, `IR` the line, nothing else of the registers and memory changed. -/
def Obligations.DecodeSkipOnlyIncrements : Prop :=
  (∀ (s : State) (ts : List Token),
    exec (.decodeSkip ts) s = .next (s.atResolve .inc .add cpName oneToken 1)) ∧
  ∀ (s : State) (i : Nat) (l : Text), s.Inv → s.Live → s.phase = .fetchHold i →
    s.memRead i = some l → (tokens l).length < 3 →
    s.params.tokenizeStrict = false ∨ canonical l = true →
    ∃ t, steps 3 s = .next t ∧ t.x = s.x ∧ t.cp = ⟨.direct, alu .add s.cp.value (ofInt 1)⟩ ∧
      t.ir = some ⟨.direct, l⟩ ∧ t.mem = s.mem ∧ t.seq = i + 1 ∧ t.Live

/-- R75: an unknown opcode has no action of its own and its operands are never examined, unsettled or
not: three cycles, `CP` one higher, every other register unchanged. -/
def Obligations.UnknownOpcodeOnlyIncrements : Prop :=
  (∀ (s : State) (op a b : Token),
    exec (.unknownOpcode op a b) s = .next (s.atResolve .inc .add cpName oneToken 1)) ∧
  ∀ (s : State) (i : Nat) (l : Text) (op a b : Token) (rest : List Token), s.Inv → s.Live →
    s.phase = .fetchHold i → s.memRead i = some l → tokens l = op :: a :: b :: rest →
    op ∉ opcodeTokens → s.params.tokenizeStrict = false ∨ canonical l = true →
    ∃ t, steps 3 s = .next t ∧ t.x = s.x ∧ t.cp = ⟨.direct, alu .add s.cp.value (ofInt 1)⟩ ∧
      t.ir = some ⟨.direct, l⟩ ∧ t.mem = s.mem ∧ t.seq = i + 1 ∧ t.Live

/-- R77: `IncrementCP` takes two cycles, stages `(add, CP, 1)` with target `CP`, and leaves
`CP ⊕ 1` in `CP`; the next cell starts then. It runs after every cell: only its write-back moves the
sequencer index on. At 2^53 and at infinity `CP` stops changing. -/
def Obligations.IncrementAddsOneToControlPointer : Prop :=
  (∀ s : State, s.Live → s.cell < s.mem.length →
    step (s.atResolve .inc .add cpName oneToken 1) =
      .next ((s.stage .add s.cp.value (ofInt 1) cpName).atCompute .inc .add s.cp.value (ofInt 1)
        cpName) ∧
    step ((s.stage .add s.cp.value (ofInt 1) cpName).atCompute .inc .add s.cp.value (ofInt 1)
        cpName) =
      .next (({ s.stage .add s.cp.value (ofInt 1) cpName with
          busActive := false
          busMessage := []
          pendingResult := some (alu .add s.cp.value (ofInt 1))
          cp := ⟨.direct, alu .add s.cp.value (ofInt 1)⟩ }).startCell (s.cell + 1))) ∧
  (∀ s t : State, s.Inv → step s = .next t → t.seq ≠ s.seq →
    s.phase = .computeHold s.seq .inc ∧ t.seq = s.seq + 1 ∧
    t.cp = ⟨.direct, alu .add s.cp.value (ofInt 1)⟩) ∧
  alu .add (ofInt 4) (ofInt 1) = ofInt 5 ∧
  alu .add (ofInt 9007199254740992) (ofInt 1) = ofInt 9007199254740992 ∧
  alu .add 0x7FF0000000000000#64 (ofInt 1) = 0x7FF0000000000000#64 ∧
  alu .add 0xFFF0000000000000#64 (ofInt 1) = 0xFFF0000000000000#64

/-- What every meaning leaves unchanged when it answers a next state: all of memory, `CP`, `IR`, the
cycle time, the sequencer index, the parameters, the fault mark but for an empty slot, and the staged
operation with its target. Registers change only by `mov` on a name of `AVAIL`; `pendingResult`
changes only by an ALU instruction. -/
def Obligations.MeaningsFrame : Prop :=
  ∀ (i : Instr) (s t : State), exec i s = .next t →
    (∀ k, t.memRead k = s.memRead k) ∧ t.mem = s.mem ∧ t.cp = s.cp ∧ t.ir = s.ir ∧
    t.cycleTime = s.cycleTime ∧ t.seq = s.seq ∧ t.params = s.params ∧
    t.currentTarget = s.currentTarget ∧ t.pendingOpcode = s.pendingOpcode ∧
    t.pendingOperandOne = s.pendingOperandOne ∧ t.pendingOperandTwo = s.pendingOperandTwo ∧
    (t.fault = s.fault ∨ (t.fault = some .emptyStaging ∧ s.pendingOpcode = none)) ∧
    (t.refused = s.refused ∨ t.refused = some .unsettledLiteral) ∧
    (∀ n, (∀ b, i ≠ .mov n b) ∨ n ∉ s.params.avail → t.readReg n = s.readReg n) ∧
    ((∀ op a b, i ≠ aluInstr op a b) → t.pendingResult = s.pendingResult)

/-- R17: who writes each register, over every step: a register changes only in the step that releases
the fetch hold of a `mov` naming it or the compute hold of a slot targeting it; `CP` only in the
latter; `IR` only in the step that releases a fetch hold; and a name outside `AVAIL` never. -/
def Obligations.RegisterWriters : Prop :=
  ∀ s t : State, s.Wf → step s = .next t →
    (∀ n, t.readReg n ≠ s.readReg n → n ∈ s.params.avail ∧
      ((∃ i l b, s.phase = .fetchHold i ∧ s.memRead i = some l ∧
          decode s.params.tokenizeStrict l = .ok (.mov n b)) ∨
        (∃ i w, s.phase = .computeHold i w ∧ s.currentTarget = some n))) ∧
    (t.cp ≠ s.cp → ∃ i w, s.phase = .computeHold i w ∧ s.currentTarget = some cpName) ∧
    (t.ir ≠ s.ir → ∃ i, s.phase = .fetchHold i)

/-- R104: "No register value changes": a rejected ALU line recomputes the slot that the last
`IncrementCP` left and writes to `CP` what it holds, in one cycle on the bus. -/
def Obligations.StaleWritebackChangesNothing : Prop :=
  ∀ (s : State) (i : Nat) (l : Text) (op : AluOp) (a : RegName) (b : Token),
    s.Inv → s.SlotInv → s.Live → s.phase = .fetchHold i → s.memRead i = some l →
    decode s.params.tokenizeStrict l = .ok (aluInstr op a b) → s.Rejects a b →
    s.pendingOpcode ≠ none →
    ∃ t u, step s = .next t ∧ t.phase = .computeHold i .main ∧ t.busActive = true ∧
      t.busMessage = Config.msgCompute cpName ∧ t.pendingResult = s.pendingResult ∧
      step t = .next u ∧ u.x = s.x ∧ u.cp = s.cp ∧ u.pendingResult = s.pendingResult ∧
      u.phase = .resolveHold i .inc .add cpName (ofInt 1)

/-- R105: "`add CP 10` with `CP = c` ends with `CP = (c ⊕ 10) ⊕ 1`", for every operation and
literal: five cycles from the fetch hold, and the next cell fetched is still the next one (R79). -/
def Obligations.AluOnControlPointer : Prop :=
  ∀ (s : State) (i : Nat) (l : Text) (op : AluOp) (b : Token) (v : Int),
    s.Inv → s.Live → s.phase = .fetchHold i → s.memRead i = some l →
    decode s.params.tokenizeStrict l = .ok (aluInstr op cpName b) → classify b = .lit v →
    ∃ t, steps 5 s = .next t ∧ t.seq = i + 1 ∧ t.x = s.x ∧
      t.cp = ⟨.direct, alu .add (alu op s.cp.value (ofInt v)) (ofInt 1)⟩

/-! ### The engine -/

/-- R71, R80: a step from a fetch hold releases the bus, writes `IR` and runs the decoded instruction.
-/
def Obligations.FetchStepRunsDecodedInstruction : Prop :=
  ∀ (s : State) (i : Nat) (l : Text), s.Live → s.phase = .fetchHold i → s.memRead i = some l →
    ∀ ins, decode s.params.tokenizeStrict l = .ok ins →
      step s = exec ins
        { s with busActive := false, busMessage := [], ir := some ⟨.direct, l⟩ }

/-- R55: strict tokenizing refuses a line that is not canonical, after `IR` is written; otherwise the
tokens of R52 decide, of every line. -/
def Obligations.StrictTokenizingRefuses : Prop :=
  ∀ (s : State) (i : Nat) (l : Text), s.Live → s.phase = .fetchHold i → s.memRead i = some l →
    (s.params.tokenizeStrict = true → canonical l = false →
      step s = .next
        { s with
          busActive := false
          busMessage := []
          ir := some ⟨.direct, l⟩
          refused := some .nonCanonicalLine }) ∧
    (s.params.tokenizeStrict = false →
      step s = exec (decodeTokens (tokens l))
        { s with busActive := false, busMessage := [], ir := some ⟨.direct, l⟩ })

/-- R121: in `Idle` the engine stays, with all state kept. -/
def Obligations.IdleKeepsAllState : Prop :=
  ∀ s : State, s.Live → s.phase = .idle → step s = .next s

/-- R112: once a mark is set the engine takes no step and a load changes nothing. -/
def Obligations.MarkedStatesAreFrozen : Prop :=
  ∀ s : State,
    (∀ k, s.fault = some k →
      step s = .fault (.frozen k) ∧ ∀ p n, s.loadProgram p n = s) ∧
    (∀ k, s.refused = some k → s.fault = none →
      step s = .refused (.frozen k) ∧ ∀ p n, s.loadProgram p n = s)

/-- R79: "no instruction can change `seq`"; the only step that does is the write-back of `IncrementCP`,
which goes to the next cell or, past the last one, to `Idle`; and "The next cell fetched is still
`seq + 1`", whatever was written to `CP`. -/
def Obligations.NoControlTransfer : Prop :=
  (∀ (i : Instr) (s t : State), exec i s = .next t → t.seq = s.seq) ∧
  (∀ s t : State, step s = .next t → t.seq ≠ s.seq →
    ∃ i, s.phase = .computeHold i .inc ∧ t.seq = i + 1) ∧
  (∀ (s t : State) (i : Nat), s.Inv → step s = .next t → s.phase = .computeHold i .inc →
    t.seq = s.seq + 1 ∧
    t.phase = if s.seq + 1 < s.mem.length then .fetchHold (s.seq + 1) else .idle) ∧
  (∀ (s t : State) (j : Nat), s.Inv → step s = .next t → t.Live → t.phase = .fetchHold j →
    j = s.seq + 1 ∧ t.seq = s.seq + 1)

/-- R43: "Only a load writes `mem`": every step keeps every cell, and every accepted load replaces the
whole memory. -/
def Obligations.MemoryOnlyReplacedByLoads : Prop :=
  (∀ s t : State, step s = .next t → t.mem = s.mem) ∧
  (∀ (s : State) (p : Text) (n : Nat), s.Live → s.phase = .idle →
    (s.loadProgram p n).mem = if p = [] ∨ n = 0 then [] else buildImage p)

/-- R27, R32: the configuration is read-only: no step and no load writes it. -/
def Obligations.ConfigurationIsReadOnly : Prop :=
  (∀ s t : State, step s = .next t → t.params = s.params) ∧
  (∀ (s : State) (p : Text) (n : Nat), (s.loadProgram p n).params = s.params)

/-- R81, R78: the step that completes the last cell's `IncrementCP` reaches the final state. -/
def Obligations.LastCellEndsTheRun : Prop :=
  ∀ (s : State) (i : Nat), s.Inv → s.Live → s.phase = .computeHold i .inc →
    i + 1 = s.mem.length → ∃ t, step s = .next t ∧ t.Final

/-- R20, R69: a compute hold names the write target on the bus, and every step that leaves a state
marked or idle leaves the bus released. -/
def Obligations.BusMessagesNameAndClear : Prop :=
  (∀ n : RegName, n <:+: Config.msgCompute n) ∧
  (∀ s t : State, s.Inv → step s = .next t → ¬ t.Live ∨ t.phase = .idle →
    t.busActive = false ∧ t.busMessage = []) ∧
  (∀ s t : State, step s = .next t → s.phase ≠ .idle → t.Live → t.phase ≠ .idle →
    t.busActive = true)

/-! ### Reset and the host -/

/-- R29: every field after reset, before any load. -/
def Obligations.ResetValues : Prop :=
  State.reset.mem = [] ∧ (∀ n, State.reset.readReg n = none) ∧
  State.reset.cp = ⟨.direct, 0x0000000000000000#64⟩ ∧ State.reset.ir = none ∧
  State.reset.busActive = false ∧ State.reset.busMessage = [] ∧ State.reset.cycleTime = none ∧
  State.reset.SlotEmpty ∧ State.reset.phase = .idle ∧ State.reset.seq = 0 ∧
  State.reset.fault = none ∧ State.reset.refused = none

/-- R27, R123: an instance under a configuration has one uninitialized register for each name and is
otherwise the reset state; a configuration with `"CP"` or with a name that is not a token is refused.
-/
def Obligations.CreationConfiguresRegisters : Prop :=
  ∀ (avail : List RegName) (strict clear : Bool),
    ((∀ n ∈ avail, isToken n = true ∧ n ≠ cpName) →
      (State.create avail strict clear).Live ∧
      (∀ n, n ∈ (State.create avail strict clear).params.avail ↔ n ∈ avail) ∧
      (∀ n, (State.create avail strict clear).readReg n = none) ∧
      (State.create avail strict clear).x.map Prod.fst =
        (State.create avail strict clear).params.avail ∧
      { State.create avail strict clear with
        x := State.reset.x, params := State.reset.params } = State.reset) ∧
    ((∃ n ∈ avail, isToken n = false ∨ n = cpName) →
      (State.create avail strict clear).refused = some .badConfig)

/-- R130: an invalid load "leaves `mem = []`, does not touch `cycleTime`, runs nothing, and the engine
stays `Idle`", whatever `CLEAR_ON_LOAD` says; with `CLEAR_ON_LOAD = false` it changes nothing else
(what `seq` becomes is left to SequencerIndexStaysInMemory). A text of LFs alone is a valid load of no
cells, and one of LFs and whitespace a valid load of decode skips. -/
def Obligations.InvalidLoadOnlyClears : Prop :=
  ∀ (s : State) (p : Text) (n : Nat), s.Live → s.phase = .idle →
    (p = [] ∨ n = 0 →
      (s.loadProgram p n).mem = [] ∧ (s.loadProgram p n).cycleTime = s.cycleTime ∧
      (s.loadProgram p n).phase = .idle ∧ (s.loadProgram p n).Live ∧
      (s.loadProgram p n).busActive = s.busActive ∧
      (s.loadProgram p n).busMessage = s.busMessage ∧
      (s.params.clearOnLoad = false →
        { s.loadProgram p n with seq := s.seq } = { s with mem := [] })) ∧
    (p ≠ [] → n ≠ 0 →
      ((∀ c ∈ p, isLF c = true) →
        (s.loadProgram p n).mem = [] ∧ (s.loadProgram p n).cycleTime = some n) ∧
      ((∀ c ∈ p, isLF c = true ∨ isWS c = true) →
        (s.loadProgram p n).cycleTime = some n ∧
        ∀ c ∈ (s.loadProgram p n).mem, decode false c.value = .ok (.decodeSkip [])))

/-- R131, R132: a valid load sets the cycle time, builds the memory and starts cell 0, or ends the run
of no cells at once, under either value of `CLEAR_ON_LOAD`; with `CLEAR_ON_LOAD = false` it keeps
registers, `CP`, `IR` and slot (R126). -/
def Obligations.ValidLoadStartsCellZero : Prop :=
  ∀ (s : State) (p : Text) (n : Nat), s.Live → s.phase = .idle → p ≠ [] → n ≠ 0 →
    ((s.loadProgram p n).cycleTime = some n ∧ (s.loadProgram p n).mem = buildImage p ∧
      (s.loadProgram p n).seq = 0 ∧ (s.loadProgram p n).Live) ∧
    (∀ l rest, programLines p = l :: rest →
      (s.loadProgram p n).phase = .fetchHold 0 ∧ (s.loadProgram p n).busActive = true ∧
      (s.loadProgram p n).busMessage = Config.msgFetch l) ∧
    (programLines p = [] →
      (s.loadProgram p n).phase = .idle ∧ (s.loadProgram p n).busActive = s.busActive ∧
      (s.loadProgram p n).busMessage = s.busMessage) ∧
    (s.params.clearOnLoad = false →
      (∀ l rest, programLines p = l :: rest →
        s.loadProgram p n =
          { s with
            cycleTime := some n
            mem := buildImage p
            seq := 0
            busActive := true
            busMessage := Config.msgFetch l
            phase := .fetchHold 0 }) ∧
      (programLines p = [] →
        s.loadProgram p n = { s with cycleTime := some n, mem := [], seq := 0 }))

/-- R127: with `CLEAR_ON_LOAD = true` every load, valid or invalid, puts registers, `CP`, `IR` and slot
back to their reset values. -/
def Obligations.ClearOnLoadResetsRegisters : Prop :=
  ∀ (s : State) (p : Text) (n : Nat), s.Live → s.phase = .idle → s.params.clearOnLoad = true →
    (∀ m, (s.loadProgram p n).readReg m = none) ∧
    (s.loadProgram p n).x.map Prod.fst = s.params.avail ∧
    (s.loadProgram p n).cp = State.reset.cp ∧ (s.loadProgram p n).ir = none ∧
    (s.loadProgram p n).SlotEmpty

/-- R134: "A `loadProgram` while `phase ≠ Idle` sets `refused <- Some ReloadRace` and changes nothing
else". -/
def Obligations.ReloadDuringRunIsRefused : Prop :=
  ∀ (s : State) (p : Text) (n : Nat), s.Live → s.phase ≠ .idle →
    s.loadProgram p n = { s with refused := some .reloadRace }

/-- R42: the memory image of the worked example of DOC0 §8, and for every valid load one cell for each
line, in source order, under the tag `IMMEDIATE`. -/
def Obligations.LoadBuildsImageInSourceOrder : Prop :=
  (∀ (s : State) (p : Text) (n : Nat), s.Live → s.phase = .idle → p ≠ [] → n ≠ 0 →
    (s.loadProgram p n).mem = (programLines p).map (fun l => ⟨.immediate, l⟩)) ∧
  buildImage "mov A 5\nadd A 2\n".toList =
    [⟨.immediate, "mov A 5".toList⟩, ⟨.immediate, "add A 2".toList⟩]

/-- R33: the snapshot pairs each cell's position with its text and shows registers, `CP`, bus and `IR`.
-/
def Obligations.SnapshotShowsState : Prop :=
  ∀ s : State,
    (∀ k, s.snapshot.mem[k]? = (s.memRead k).map (fun l => (k, l))) ∧ s.snapshot.x = s.x ∧
    s.snapshot.cp = s.cp ∧ s.snapshot.busActive = s.busActive ∧
    s.snapshot.busMessage = s.busMessage ∧ s.snapshot.ir = s.ir

/-- R24, R30 item 5: "`seq` is never more than `len(mem)`", in every reachable state. After an invalid
load, which empties memory, `seq` is therefore 0 (log entry 14, the model's inference). -/
def Obligations.SequencerIndexStaysInMemory : Prop :=
  (∀ s : State, Reachable s → s.seq ≤ s.mem.length) ∧
  ∀ (s : State) (p : Text) (n : Nat), s.Live → s.phase = .idle → p = [] ∨ n = 0 →
    (s.loadProgram p n).seq = 0

/-! ### Invariants of every step -/

/-- R30, R21: a new instance, good or refused, meets the invariant, the bounds on values and the slot
invariant; so does the reset state. -/
def Obligations.CreationMeetsInvariants : Prop :=
  (State.reset.Inv ∧ State.reset.ValuesOk ∧ State.reset.SlotInv) ∧
  ∀ (avail : List RegName) (strict clear : Bool),
    (State.create avail strict clear).Inv ∧ (State.create avail strict clear).ValuesOk ∧
    (State.create avail strict clear).SlotInv

/-- R30: every step keeps the invariant. -/
def Obligations.StepKeepsInvariant : Prop :=
  ∀ s t : State, s.Inv → step s = .next t → t.Inv

/-- R30: every load keeps the invariant, and with it the bounds on values and the slot invariant. -/
def Obligations.LoadKeepsInvariants : Prop :=
  ∀ (s : State) (p : Text) (n : Nat), s.Inv →
    (s.loadProgram p n).Inv ∧ (s.ValuesOk → (s.loadProgram p n).ValuesOk) ∧
    (s.SlotInv → (s.loadProgram p n).SlotInv)

/-- R106 items 1 and 2: every step keeps registers and slot free of NaN, and the staged second operand
a literal's value. -/
def Obligations.StepKeepsValueBounds : Prop :=
  ∀ s t : State, s.Inv → s.ValuesOk → step s = .next t → t.ValuesOk

/-- R104, R136: every step keeps the slot, between cells, what the last `IncrementCP` left. -/
def Obligations.StepKeepsSlotInvariant : Prop :=
  ∀ s t : State, s.Inv → s.SlotInv → step s = .next t → t.SlotInv

/-- R30, R104, R106: every state that creation, steps and loads can reach meets all three. -/
def Obligations.ReachableStatesMeetInvariants : Prop :=
  ∀ s : State, Reachable s → s.Inv ∧ s.ValuesOk ∧ s.SlotInv

/-- R107: "every error condition is recovered silently, and the sequence goes on": where no mark is
set, a step always has a next state. -/
def Obligations.UnmarkedStatesAlwaysStep : Prop :=
  ∀ s : State, s.Inv → s.Live → ∃ t, step s = .next t

/-! ### Cells and runs -/

/-- R141: cycles of each kind of cell: the sequencer index moves on after exactly so many steps. -/
def Obligations.CellCycleCounts : Prop :=
  ∀ (s : State) (i : Nat) (l : Text) (ins : Instr) (n : Nat),
    s.Inv → s.Live → s.phase = .fetchHold i → s.memRead i = some l →
    decode s.params.tokenizeStrict l = .ok ins →
    ((∃ ts, ins = .decodeSkip ts ∧ n = 3) ∨ (∃ op a b, ins = .unknownOpcode op a b ∧ n = 3) ∨
      (∃ a b, ins = .mov a b ∧ ¬ (a ∈ s.params.avail ∧ classify b = .unsettled) ∧ n = 3) ∨
      (∃ op a b, ins = aluInstr op a b ∧ s.Accepts a b ∧ s.readOperand a ≠ none ∧ n = 5) ∨
      (∃ op a b, ins = aluInstr op a b ∧ s.Rejects a b ∧ s.pendingOpcode ≠ none ∧ n = 4)) →
    (∃ t, steps n s = .next t ∧ t.Live ∧ t.seq = i + 1) ∧
    ∀ k < n, ∃ t, steps k s = .next t ∧ t.Live ∧ t.seq = i ∧ t.busActive = true

/-- R80: "This table and the procedures ... describe the same sequence of actions": from a fetch hold,
the engine's steps reach what `ExecuteCell` (R76) gives, and the next cell starts there; where
`ExecuteCell` stops in a mark, the engine stops in the same state at most one hold further on. -/
def Obligations.StepsRefineExecuteCell : Prop :=
  ∀ (s : State) (i : Nat), s.Inv → s.Live → s.phase = .fetchHold i →
    ∃ u t k, executeCell i s = .next u ∧ k ≤ 5 ∧ steps k s = .next t ∧
      if u.Live then t = u.startCell (i + 1) else { t with phase := u.phase } = u

/-- R78, R80, R81: a run ends, and ends as `Run()` says: in the final state, or in the marked state that
`Run()` stops in, within five cycles for each cell. -/
def Obligations.RunsEndAsTheProcedureSays : Prop :=
  ∀ (s : State) (i : Nat), s.Inv → s.Live → s.phase = .fetchHold i →
    ∃ u t k, runCells (s.mem.length - i) s = .next u ∧ k ≤ 5 * (s.mem.length - i) ∧
      steps k s = .next t ∧
      if u.Live then t = u ∧ t.Final else { t with phase := u.phase } = u

/-- R143: over the cells from `i` on, none of them an accepted ALU instruction on `CP`, `CP` moves by
their number, while its values stay whole and below 2^53 in magnitude. -/
def Obligations.ControlPointerCountsCells : Prop :=
  ∀ (s : State) (i : Nat) (p : Int), s.Inv → s.SlotInv → s.Live → s.phase = .fetchHold i →
    IsWhole s.cp.value p → -(2 ^ 53) < p → p + (s.mem.length - i : Int) < 2 ^ 53 →
    (∀ j l, i ≤ j → s.memRead j = some l → leavesCP s.params.tokenizeStrict l) →
    ∀ k t, steps k s = .next t → t.Live → t.phase = .idle →
      IsWhole t.cp.value (p + (s.mem.length - i : Int))
end

