-- ==== Sys2Proof/Laws/State.lean ====
section
/-! SUPPORT. What each named operation on the state does to each field, so that no later proof unfolds
a record update. -/

namespace Sys2Proof.Machine

/-! ### Updates that are one record update -/

section writeReg

variable (s : State) (n : RegName) (v : Num64)

@[simp] theorem State.writeReg_mem : (s.writeReg n v).mem = s.mem := rfl
@[simp] theorem State.writeReg_x : (s.writeReg n v).x = s.x.map (fun e => if e.1 = n then (e.1, some ⟨.direct, v⟩) else e) := rfl
@[simp] theorem State.writeReg_cp : (s.writeReg n v).cp = s.cp := rfl
@[simp] theorem State.writeReg_ir : (s.writeReg n v).ir = s.ir := rfl
@[simp] theorem State.writeReg_busActive : (s.writeReg n v).busActive = s.busActive := rfl
@[simp] theorem State.writeReg_busMessage : (s.writeReg n v).busMessage = s.busMessage := rfl
@[simp] theorem State.writeReg_cycleTime : (s.writeReg n v).cycleTime = s.cycleTime := rfl
@[simp] theorem State.writeReg_currentTarget : (s.writeReg n v).currentTarget = s.currentTarget := rfl
@[simp] theorem State.writeReg_pendingOpcode : (s.writeReg n v).pendingOpcode = s.pendingOpcode := rfl
@[simp] theorem State.writeReg_pendingOperandOne : (s.writeReg n v).pendingOperandOne = s.pendingOperandOne := rfl
@[simp] theorem State.writeReg_pendingOperandTwo : (s.writeReg n v).pendingOperandTwo = s.pendingOperandTwo := rfl
@[simp] theorem State.writeReg_pendingResult : (s.writeReg n v).pendingResult = s.pendingResult := rfl
@[simp] theorem State.writeReg_phase : (s.writeReg n v).phase = s.phase := rfl
@[simp] theorem State.writeReg_seq : (s.writeReg n v).seq = s.seq := rfl
@[simp] theorem State.writeReg_fault : (s.writeReg n v).fault = s.fault := rfl
@[simp] theorem State.writeReg_refused : (s.writeReg n v).refused = s.refused := rfl
@[simp] theorem State.writeReg_params : (s.writeReg n v).params = s.params := rfl

end writeReg

section busAssert

variable (s : State) (m : Text)

@[simp] theorem State.busAssert_mem : (s.busAssert m).mem = s.mem := rfl
@[simp] theorem State.busAssert_x : (s.busAssert m).x = s.x := rfl
@[simp] theorem State.busAssert_cp : (s.busAssert m).cp = s.cp := rfl
@[simp] theorem State.busAssert_ir : (s.busAssert m).ir = s.ir := rfl
@[simp] theorem State.busAssert_busActive : (s.busAssert m).busActive = true := rfl
@[simp] theorem State.busAssert_busMessage : (s.busAssert m).busMessage = m := rfl
@[simp] theorem State.busAssert_cycleTime : (s.busAssert m).cycleTime = s.cycleTime := rfl
@[simp] theorem State.busAssert_currentTarget : (s.busAssert m).currentTarget = s.currentTarget := rfl
@[simp] theorem State.busAssert_pendingOpcode : (s.busAssert m).pendingOpcode = s.pendingOpcode := rfl
@[simp] theorem State.busAssert_pendingOperandOne : (s.busAssert m).pendingOperandOne = s.pendingOperandOne := rfl
@[simp] theorem State.busAssert_pendingOperandTwo : (s.busAssert m).pendingOperandTwo = s.pendingOperandTwo := rfl
@[simp] theorem State.busAssert_pendingResult : (s.busAssert m).pendingResult = s.pendingResult := rfl
@[simp] theorem State.busAssert_phase : (s.busAssert m).phase = s.phase := rfl
@[simp] theorem State.busAssert_seq : (s.busAssert m).seq = s.seq := rfl
@[simp] theorem State.busAssert_fault : (s.busAssert m).fault = s.fault := rfl
@[simp] theorem State.busAssert_refused : (s.busAssert m).refused = s.refused := rfl
@[simp] theorem State.busAssert_params : (s.busAssert m).params = s.params := rfl

end busAssert

section busRelease

variable (s : State) 

@[simp] theorem State.busRelease_mem : (s.busRelease).mem = s.mem := rfl
@[simp] theorem State.busRelease_x : (s.busRelease).x = s.x := rfl
@[simp] theorem State.busRelease_cp : (s.busRelease).cp = s.cp := rfl
@[simp] theorem State.busRelease_ir : (s.busRelease).ir = s.ir := rfl
@[simp] theorem State.busRelease_busActive : (s.busRelease).busActive = false := rfl
@[simp] theorem State.busRelease_busMessage : (s.busRelease).busMessage = [] := rfl
@[simp] theorem State.busRelease_cycleTime : (s.busRelease).cycleTime = s.cycleTime := rfl
@[simp] theorem State.busRelease_currentTarget : (s.busRelease).currentTarget = s.currentTarget := rfl
@[simp] theorem State.busRelease_pendingOpcode : (s.busRelease).pendingOpcode = s.pendingOpcode := rfl
@[simp] theorem State.busRelease_pendingOperandOne : (s.busRelease).pendingOperandOne = s.pendingOperandOne := rfl
@[simp] theorem State.busRelease_pendingOperandTwo : (s.busRelease).pendingOperandTwo = s.pendingOperandTwo := rfl
@[simp] theorem State.busRelease_pendingResult : (s.busRelease).pendingResult = s.pendingResult := rfl
@[simp] theorem State.busRelease_phase : (s.busRelease).phase = s.phase := rfl
@[simp] theorem State.busRelease_seq : (s.busRelease).seq = s.seq := rfl
@[simp] theorem State.busRelease_fault : (s.busRelease).fault = s.fault := rfl
@[simp] theorem State.busRelease_refused : (s.busRelease).refused = s.refused := rfl
@[simp] theorem State.busRelease_params : (s.busRelease).params = s.params := rfl

end busRelease

section stage

variable (s : State) (op : AluOp) (v w : Num64) (a : RegName)

@[simp] theorem State.stage_mem : (s.stage op v w a).mem = s.mem := rfl
@[simp] theorem State.stage_x : (s.stage op v w a).x = s.x := rfl
@[simp] theorem State.stage_cp : (s.stage op v w a).cp = s.cp := rfl
@[simp] theorem State.stage_ir : (s.stage op v w a).ir = s.ir := rfl
@[simp] theorem State.stage_busActive : (s.stage op v w a).busActive = s.busActive := rfl
@[simp] theorem State.stage_busMessage : (s.stage op v w a).busMessage = s.busMessage := rfl
@[simp] theorem State.stage_cycleTime : (s.stage op v w a).cycleTime = s.cycleTime := rfl
@[simp] theorem State.stage_currentTarget : (s.stage op v w a).currentTarget = some a := rfl
@[simp] theorem State.stage_pendingOpcode : (s.stage op v w a).pendingOpcode = some op := rfl
@[simp] theorem State.stage_pendingOperandOne : (s.stage op v w a).pendingOperandOne = some v := rfl
@[simp] theorem State.stage_pendingOperandTwo : (s.stage op v w a).pendingOperandTwo = some w := rfl
@[simp] theorem State.stage_pendingResult : (s.stage op v w a).pendingResult = s.pendingResult := rfl
@[simp] theorem State.stage_phase : (s.stage op v w a).phase = s.phase := rfl
@[simp] theorem State.stage_seq : (s.stage op v w a).seq = s.seq := rfl
@[simp] theorem State.stage_fault : (s.stage op v w a).fault = s.fault := rfl
@[simp] theorem State.stage_refused : (s.stage op v w a).refused = s.refused := rfl
@[simp] theorem State.stage_params : (s.stage op v w a).params = s.params := rfl

end stage

section raiseFault

variable (s : State) (k : FaultKind)

@[simp] theorem State.raiseFault_mem : (s.raiseFault k).mem = s.mem := rfl
@[simp] theorem State.raiseFault_x : (s.raiseFault k).x = s.x := rfl
@[simp] theorem State.raiseFault_cp : (s.raiseFault k).cp = s.cp := rfl
@[simp] theorem State.raiseFault_ir : (s.raiseFault k).ir = s.ir := rfl
@[simp] theorem State.raiseFault_busActive : (s.raiseFault k).busActive = s.busActive := rfl
@[simp] theorem State.raiseFault_busMessage : (s.raiseFault k).busMessage = s.busMessage := rfl
@[simp] theorem State.raiseFault_cycleTime : (s.raiseFault k).cycleTime = s.cycleTime := rfl
@[simp] theorem State.raiseFault_currentTarget : (s.raiseFault k).currentTarget = s.currentTarget := rfl
@[simp] theorem State.raiseFault_pendingOpcode : (s.raiseFault k).pendingOpcode = s.pendingOpcode := rfl
@[simp] theorem State.raiseFault_pendingOperandOne : (s.raiseFault k).pendingOperandOne = s.pendingOperandOne := rfl
@[simp] theorem State.raiseFault_pendingOperandTwo : (s.raiseFault k).pendingOperandTwo = s.pendingOperandTwo := rfl
@[simp] theorem State.raiseFault_pendingResult : (s.raiseFault k).pendingResult = s.pendingResult := rfl
@[simp] theorem State.raiseFault_phase : (s.raiseFault k).phase = s.phase := rfl
@[simp] theorem State.raiseFault_seq : (s.raiseFault k).seq = s.seq := rfl
@[simp] theorem State.raiseFault_fault : (s.raiseFault k).fault = some k := rfl
@[simp] theorem State.raiseFault_refused : (s.raiseFault k).refused = s.refused := rfl
@[simp] theorem State.raiseFault_params : (s.raiseFault k).params = s.params := rfl

end raiseFault

section refuse

variable (s : State) (k : RefusalKind)

@[simp] theorem State.refuse_mem : (s.refuse k).mem = s.mem := rfl
@[simp] theorem State.refuse_x : (s.refuse k).x = s.x := rfl
@[simp] theorem State.refuse_cp : (s.refuse k).cp = s.cp := rfl
@[simp] theorem State.refuse_ir : (s.refuse k).ir = s.ir := rfl
@[simp] theorem State.refuse_busActive : (s.refuse k).busActive = s.busActive := rfl
@[simp] theorem State.refuse_busMessage : (s.refuse k).busMessage = s.busMessage := rfl
@[simp] theorem State.refuse_cycleTime : (s.refuse k).cycleTime = s.cycleTime := rfl
@[simp] theorem State.refuse_currentTarget : (s.refuse k).currentTarget = s.currentTarget := rfl
@[simp] theorem State.refuse_pendingOpcode : (s.refuse k).pendingOpcode = s.pendingOpcode := rfl
@[simp] theorem State.refuse_pendingOperandOne : (s.refuse k).pendingOperandOne = s.pendingOperandOne := rfl
@[simp] theorem State.refuse_pendingOperandTwo : (s.refuse k).pendingOperandTwo = s.pendingOperandTwo := rfl
@[simp] theorem State.refuse_pendingResult : (s.refuse k).pendingResult = s.pendingResult := rfl
@[simp] theorem State.refuse_phase : (s.refuse k).phase = s.phase := rfl
@[simp] theorem State.refuse_seq : (s.refuse k).seq = s.seq := rfl
@[simp] theorem State.refuse_fault : (s.refuse k).fault = s.fault := rfl
@[simp] theorem State.refuse_refused : (s.refuse k).refused = some k := rfl
@[simp] theorem State.refuse_params : (s.refuse k).params = s.params := rfl

end refuse

section fetched

variable (s : State) (l : Text)

@[simp] theorem State.fetched_mem : (s.fetched l).mem = s.mem := rfl
@[simp] theorem State.fetched_x : (s.fetched l).x = s.x := rfl
@[simp] theorem State.fetched_cp : (s.fetched l).cp = s.cp := rfl
@[simp] theorem State.fetched_ir : (s.fetched l).ir = some ⟨.direct, l⟩ := rfl
@[simp] theorem State.fetched_busActive : (s.fetched l).busActive = false := rfl
@[simp] theorem State.fetched_busMessage : (s.fetched l).busMessage = [] := rfl
@[simp] theorem State.fetched_cycleTime : (s.fetched l).cycleTime = s.cycleTime := rfl
@[simp] theorem State.fetched_currentTarget : (s.fetched l).currentTarget = s.currentTarget := rfl
@[simp] theorem State.fetched_pendingOpcode : (s.fetched l).pendingOpcode = s.pendingOpcode := rfl
@[simp] theorem State.fetched_pendingOperandOne : (s.fetched l).pendingOperandOne = s.pendingOperandOne := rfl
@[simp] theorem State.fetched_pendingOperandTwo : (s.fetched l).pendingOperandTwo = s.pendingOperandTwo := rfl
@[simp] theorem State.fetched_pendingResult : (s.fetched l).pendingResult = s.pendingResult := rfl
@[simp] theorem State.fetched_phase : (s.fetched l).phase = s.phase := rfl
@[simp] theorem State.fetched_seq : (s.fetched l).seq = s.seq := rfl
@[simp] theorem State.fetched_fault : (s.fetched l).fault = s.fault := rfl
@[simp] theorem State.fetched_refused : (s.fetched l).refused = s.refused := rfl
@[simp] theorem State.fetched_params : (s.fetched l).params = s.params := rfl

end fetched

section atResolve

variable (s : State) (w : Which) (op : AluOp) (a : RegName) (b : Token) (v : Int)

@[simp] theorem State.atResolve_mem : (s.atResolve w op a b v).mem = s.mem := rfl
@[simp] theorem State.atResolve_x : (s.atResolve w op a b v).x = s.x := rfl
@[simp] theorem State.atResolve_cp : (s.atResolve w op a b v).cp = s.cp := rfl
@[simp] theorem State.atResolve_ir : (s.atResolve w op a b v).ir = s.ir := rfl
@[simp] theorem State.atResolve_busActive : (s.atResolve w op a b v).busActive = true := rfl
@[simp] theorem State.atResolve_busMessage : (s.atResolve w op a b v).busMessage = Config.msgResolve op a b := rfl
@[simp] theorem State.atResolve_cycleTime : (s.atResolve w op a b v).cycleTime = s.cycleTime := rfl
@[simp] theorem State.atResolve_currentTarget : (s.atResolve w op a b v).currentTarget = s.currentTarget := rfl
@[simp] theorem State.atResolve_pendingOpcode : (s.atResolve w op a b v).pendingOpcode = s.pendingOpcode := rfl
@[simp] theorem State.atResolve_pendingOperandOne : (s.atResolve w op a b v).pendingOperandOne = s.pendingOperandOne := rfl
@[simp] theorem State.atResolve_pendingOperandTwo : (s.atResolve w op a b v).pendingOperandTwo = s.pendingOperandTwo := rfl
@[simp] theorem State.atResolve_pendingResult : (s.atResolve w op a b v).pendingResult = s.pendingResult := rfl
@[simp] theorem State.atResolve_phase : (s.atResolve w op a b v).phase = .resolveHold s.cell w op a (ofInt v) := rfl
@[simp] theorem State.atResolve_seq : (s.atResolve w op a b v).seq = s.seq := rfl
@[simp] theorem State.atResolve_fault : (s.atResolve w op a b v).fault = s.fault := rfl
@[simp] theorem State.atResolve_refused : (s.atResolve w op a b v).refused = s.refused := rfl
@[simp] theorem State.atResolve_params : (s.atResolve w op a b v).params = s.params := rfl

end atResolve

section atCompute

variable (s : State) (w : Which) (op : AluOp) (v u : Num64) (t : RegName)

@[simp] theorem State.atCompute_mem : (s.atCompute w op v u t).mem = s.mem := rfl
@[simp] theorem State.atCompute_x : (s.atCompute w op v u t).x = s.x := rfl
@[simp] theorem State.atCompute_cp : (s.atCompute w op v u t).cp = s.cp := rfl
@[simp] theorem State.atCompute_ir : (s.atCompute w op v u t).ir = s.ir := rfl
@[simp] theorem State.atCompute_busActive : (s.atCompute w op v u t).busActive = true := rfl
@[simp] theorem State.atCompute_busMessage : (s.atCompute w op v u t).busMessage = Config.msgCompute t := rfl
@[simp] theorem State.atCompute_cycleTime : (s.atCompute w op v u t).cycleTime = s.cycleTime := rfl
@[simp] theorem State.atCompute_currentTarget : (s.atCompute w op v u t).currentTarget = s.currentTarget := rfl
@[simp] theorem State.atCompute_pendingOpcode : (s.atCompute w op v u t).pendingOpcode = s.pendingOpcode := rfl
@[simp] theorem State.atCompute_pendingOperandOne : (s.atCompute w op v u t).pendingOperandOne = s.pendingOperandOne := rfl
@[simp] theorem State.atCompute_pendingOperandTwo : (s.atCompute w op v u t).pendingOperandTwo = s.pendingOperandTwo := rfl
@[simp] theorem State.atCompute_pendingResult : (s.atCompute w op v u t).pendingResult = some (alu op v u) := rfl
@[simp] theorem State.atCompute_phase : (s.atCompute w op v u t).phase = .computeHold s.cell w := rfl
@[simp] theorem State.atCompute_seq : (s.atCompute w op v u t).seq = s.seq := rfl
@[simp] theorem State.atCompute_fault : (s.atCompute w op v u t).fault = s.fault := rfl
@[simp] theorem State.atCompute_refused : (s.atCompute w op v u t).refused = s.refused := rfl
@[simp] theorem State.atCompute_params : (s.atCompute w op v u t).params = s.params := rfl

end atCompute

/-! ### The address path and the write-back -/

/-- R92: the memory-address-resolution path does nothing. -/
@[simp] theorem State.addressPath_eq (s : State) (a : RegName) : s.addressPath a = s := by
  simp [State.addressPath]

theorem State.writeTarget_cp_name (s : State) (r : Num64) :
    s.writeTarget cpName r = { s with cp := ⟨.direct, r⟩ } := by simp [State.writeTarget]

theorem State.writeTarget_of_ne {n : RegName} (h : n ≠ cpName) (s : State) (r : Num64) :
    s.writeTarget n r = s.writeReg n r := by simp [State.writeTarget, h]

section writeTarget

variable (s : State) (n : RegName) (r : Num64)

@[simp] theorem State.writeTarget_mem : (s.writeTarget n r).mem = s.mem := by
  unfold State.writeTarget; split <;> rfl
@[simp] theorem State.writeTarget_ir : (s.writeTarget n r).ir = s.ir := by
  unfold State.writeTarget; split <;> rfl
@[simp] theorem State.writeTarget_busActive : (s.writeTarget n r).busActive = s.busActive := by
  unfold State.writeTarget; split <;> rfl
@[simp] theorem State.writeTarget_busMessage : (s.writeTarget n r).busMessage = s.busMessage := by
  unfold State.writeTarget; split <;> rfl
@[simp] theorem State.writeTarget_cycleTime : (s.writeTarget n r).cycleTime = s.cycleTime := by
  unfold State.writeTarget; split <;> rfl
@[simp] theorem State.writeTarget_currentTarget : (s.writeTarget n r).currentTarget = s.currentTarget := by
  unfold State.writeTarget; split <;> rfl
@[simp] theorem State.writeTarget_pendingOpcode : (s.writeTarget n r).pendingOpcode = s.pendingOpcode := by
  unfold State.writeTarget; split <;> rfl
@[simp] theorem State.writeTarget_pendingOperandOne : (s.writeTarget n r).pendingOperandOne = s.pendingOperandOne := by
  unfold State.writeTarget; split <;> rfl
@[simp] theorem State.writeTarget_pendingOperandTwo : (s.writeTarget n r).pendingOperandTwo = s.pendingOperandTwo := by
  unfold State.writeTarget; split <;> rfl
@[simp] theorem State.writeTarget_pendingResult : (s.writeTarget n r).pendingResult = s.pendingResult := by
  unfold State.writeTarget; split <;> rfl
@[simp] theorem State.writeTarget_phase : (s.writeTarget n r).phase = s.phase := by
  unfold State.writeTarget; split <;> rfl
@[simp] theorem State.writeTarget_seq : (s.writeTarget n r).seq = s.seq := by
  unfold State.writeTarget; split <;> rfl
@[simp] theorem State.writeTarget_fault : (s.writeTarget n r).fault = s.fault := by
  unfold State.writeTarget; split <;> rfl
@[simp] theorem State.writeTarget_refused : (s.writeTarget n r).refused = s.refused := by
  unfold State.writeTarget; split <;> rfl
@[simp] theorem State.writeTarget_params : (s.writeTarget n r).params = s.params := by
  unfold State.writeTarget; split <;> rfl

theorem State.writeTarget_x :
    (s.writeTarget n r).x = if n = cpName then s.x else (s.writeReg n r).x := by
  unfold State.writeTarget; split <;> rfl

theorem State.writeTarget_cp :
    (s.writeTarget n r).cp = if n = cpName then ⟨.direct, r⟩ else s.cp := by
  unfold State.writeTarget; split <;> rfl

end writeTarget

/-! ### The start of a cell -/

section startCell

variable (s : State) (i : Nat)

@[simp] theorem State.startCell_mem : (s.startCell i).mem = s.mem := by
  unfold State.startCell; split <;> rfl
@[simp] theorem State.startCell_x : (s.startCell i).x = s.x := by
  unfold State.startCell; split <;> rfl
@[simp] theorem State.startCell_cp : (s.startCell i).cp = s.cp := by
  unfold State.startCell; split <;> rfl
@[simp] theorem State.startCell_ir : (s.startCell i).ir = s.ir := by
  unfold State.startCell; split <;> rfl
@[simp] theorem State.startCell_cycleTime : (s.startCell i).cycleTime = s.cycleTime := by
  unfold State.startCell; split <;> rfl
@[simp] theorem State.startCell_currentTarget : (s.startCell i).currentTarget = s.currentTarget := by
  unfold State.startCell; split <;> rfl
@[simp] theorem State.startCell_pendingOpcode : (s.startCell i).pendingOpcode = s.pendingOpcode := by
  unfold State.startCell; split <;> rfl
@[simp] theorem State.startCell_pendingOperandOne : (s.startCell i).pendingOperandOne = s.pendingOperandOne := by
  unfold State.startCell; split <;> rfl
@[simp] theorem State.startCell_pendingOperandTwo : (s.startCell i).pendingOperandTwo = s.pendingOperandTwo := by
  unfold State.startCell; split <;> rfl
@[simp] theorem State.startCell_pendingResult : (s.startCell i).pendingResult = s.pendingResult := by
  unfold State.startCell; split <;> rfl
@[simp] theorem State.startCell_seq : (s.startCell i).seq = i := by
  unfold State.startCell; split <;> rfl
@[simp] theorem State.startCell_fault : (s.startCell i).fault = s.fault := by
  unfold State.startCell; split <;> rfl
@[simp] theorem State.startCell_refused : (s.startCell i).refused = s.refused := by
  unfold State.startCell; split <;> rfl
@[simp] theorem State.startCell_params : (s.startCell i).params = s.params := by
  unfold State.startCell; split <;> rfl

/-- R81: past the last cell the run ends. -/
theorem State.startCell_past (h : s.memRead i = none) :
    s.startCell i = { s with seq := i, phase := .idle } := by simp [State.startCell, h]

/-- R80: a cell starts with its fetch hold. -/
theorem State.startCell_fetch {l : Text} (h : s.memRead i = some l) :
    s.startCell i =
      { s with
        seq := i
        busActive := true
        busMessage := Config.msgFetch l
        phase := .fetchHold i } := by simp [State.startCell, h]

end startCell

/-! ### Derived reads -/

@[simp] theorem State.raiseFault_not_live (s : State) (k : FaultKind) :
    ¬ (s.raiseFault k).Live := by simp [State.raiseFault]

@[simp] theorem State.refuse_not_live (s : State) (k : RefusalKind) : ¬ (s.refuse k).Live := by
  simp [State.refuse]

theorem State.memRead_eq (s t : State) (h : t.mem = s.mem) (i : Nat) :
    t.memRead i = s.memRead i := by simp [State.memRead, h]

theorem State.readOperand_eq (s t : State) (hx : t.x = s.x) (hcp : t.cp = s.cp) (a : RegName) :
    t.readOperand a = s.readOperand a := by simp [State.readOperand, State.readReg, hx, hcp]

theorem State.memRead_some_iff (s : State) (i : Nat) :
    (∃ l, s.memRead i = some l) ↔ i < s.mem.length := by
  constructor
  · rintro ⟨l, h⟩
    by_contra hn
    simp [State.memRead, List.getElem?_eq_none (Nat.le_of_not_lt hn)] at h
  · intro h
    exact ⟨s.mem[i].value, by simp [State.memRead, h]⟩

end Sys2Proof.Machine
end

