-- ==== Sys2Proof/Laws/Alu.lean ====
section
/-! SUPPORT. What each stage of the ALU path can do (R80, R88 to R96), said once: one equation for each
case, and one case lemma for each stage that says everything a next state of it can be. -/

namespace Sys2Proof.Machine

/-! ### Compute -/

theorem startCompute_empty {s : State} (w : Which) (h : s.pendingOpcode = none) :
    startCompute w s = .next (s.raiseFault .emptyStaging) := by
  unfold startCompute; simp [h]

theorem startCompute_full {s : State} {op : AluOp} {x y : Num64} {t : RegName} (w : Which)
    (h0 : s.pendingOpcode = some op) (h1 : s.pendingOperandOne = some x)
    (h2 : s.pendingOperandTwo = some y) (h3 : s.currentTarget = some t) :
    startCompute w s = .next (s.atCompute w op x y t) := by
  unfold startCompute; simp [h0, h1, h2, h3]

/-- Everything a next state of the compute stage can be. -/
theorem startCompute_cases {w : Which} {s t : State} (h : startCompute w s = .next t) :
    (s.pendingOpcode = none ∧ t = s.raiseFault .emptyStaging) ∨
      ∃ op x y n, s.pendingOpcode = some op ∧ s.pendingOperandOne = some x ∧
        s.pendingOperandTwo = some y ∧ s.currentTarget = some n ∧ t = s.atCompute w op x y n := by
  cases h0 : s.pendingOpcode with
  | none =>
    rw [startCompute_empty w h0] at h
    exact .inl ⟨rfl, (Host.Outcome.next.inj h).symm⟩
  | some op =>
    cases h1 : s.pendingOperandOne <;> cases h2 : s.pendingOperandTwo <;>
      cases h3 : s.currentTarget
    case some.some.some =>
      rw [startCompute_full w h0 h1 h2 h3] at h
      exact .inr ⟨_, _, _, _, rfl, rfl, rfl, rfl, (Host.Outcome.next.inj h).symm⟩
    all_goals simp [startCompute, h0, h1, h2, h3] at h

/-- The compute stage stops only on a slot that is filled in part. -/
theorem startCompute_total {s : State} (w : Which)
    (h : s.pendingOpcode.isSome → s.pendingOperandOne.isSome ∧ s.pendingOperandTwo.isSome
      ∧ s.currentTarget.isSome) : ∃ t, startCompute w s = .next t := by
  cases h0 : s.pendingOpcode with
  | none => exact ⟨_, startCompute_empty w h0⟩
  | some op =>
    obtain ⟨h1, h2, h3⟩ := h (by simp [h0])
    obtain ⟨x, h1⟩ := Option.isSome_iff_exists.1 h1
    obtain ⟨y, h2⟩ := Option.isSome_iff_exists.1 h2
    obtain ⟨n, h3⟩ := Option.isSome_iff_exists.1 h3
    exact ⟨_, startCompute_full w h0 h1 h2 h3⟩

/-! ### Dispatch -/

theorem dispatchAlu_lit {s : State} {a : RegName} {b : Token} {v : Int} (w : Which) (op : AluOp)
    (ha : s.isReg a) (hb : classify b = .lit v) :
    dispatchAlu w op a b s = .next (s.atResolve w op a b v) := by
  unfold dispatchAlu; rw [if_pos ha, hb]

theorem dispatchAlu_unsettled {s : State} {a : RegName} {b : Token} (w : Which) (op : AluOp)
    (ha : s.isReg a) (hb : classify b = .unsettled) :
    dispatchAlu w op a b s = .next (s.refuse .unsettledLiteral) := by
  unfold dispatchAlu; rw [if_pos ha, hb]

theorem dispatchAlu_stale {s : State} {a : RegName} {b : Token} (w : Which) (op : AluOp)
    (h : ¬ s.isReg a ∨ classify b = .zero ∨ classify b = .nonNumeric) :
    dispatchAlu w op a b s = startCompute w s := by
  unfold dispatchAlu
  by_cases ha : s.isReg a
  · rw [if_pos ha]
    rcases h with h | h | h
    · exact absurd ha h
    · simp [h]
    · simp [h]
  · rw [if_neg ha, State.addressPath_eq]

/-- Everything an ALU dispatch can answer. -/
theorem dispatchAlu_cases (w : Which) (op : AluOp) (a : RegName) (b : Token) (s : State) :
    (∃ v, s.isReg a ∧ classify b = .lit v ∧
        dispatchAlu w op a b s = .next (s.atResolve w op a b v)) ∨
      (s.isReg a ∧ classify b = .unsettled ∧
        dispatchAlu w op a b s = .next (s.refuse .unsettledLiteral)) ∨
      ((¬ s.isReg a ∨ classify b = .zero ∨ classify b = .nonNumeric) ∧
        dispatchAlu w op a b s = startCompute w s) := by
  by_cases ha : s.isReg a
  · cases hb : classify b with
    | lit v => exact .inl ⟨v, ha, rfl, dispatchAlu_lit w op ha hb⟩
    | unsettled => exact .inr (.inl ⟨ha, rfl, dispatchAlu_unsettled w op ha hb⟩)
    | zero => exact .inr (.inr ⟨.inr (.inl rfl), dispatchAlu_stale w op (.inr (.inl hb))⟩)
    | nonNumeric => exact .inr (.inr ⟨.inr (.inr rfl), dispatchAlu_stale w op (.inr (.inr hb))⟩)
  · exact .inr (.inr ⟨.inl ha, dispatchAlu_stale w op (.inl ha)⟩)

/-! ### IncrementCP -/

theorem isReg_cpName (s : State) : s.isReg cpName := Or.inr rfl

theorem classify_oneToken : classify oneToken = .lit 1 := by decide

/-- R77: `IncrementCP` always takes the register path. -/
theorem incrementCP_eq (s : State) : incrementCP s = .next (s.atResolve .inc .add cpName oneToken 1) :=
  dispatchAlu_lit .inc .add (isReg_cpName s) classify_oneToken

/-! ### Resolve -/

theorem resolveRelease_none {s : State} {a : RegName} (w : Which) (op : AluOp) (v : Num64)
    (h : s.readOperand a = none) :
    resolveRelease w op a v s = .next (s.busRelease.raiseFault .uninitializedRead) := by
  have h' : s.busRelease.readOperand a = none := h
  simp [resolveRelease, h']

theorem resolveRelease_some {s : State} {a : RegName} {x : Num64} (w : Which) (op : AluOp)
    (v : Num64) (h : s.readOperand a = some x) :
    resolveRelease w op a v s =
      .next ((s.busRelease.stage op x v a).atCompute w op x v a) := by
  have h' : s.busRelease.readOperand a = some x := h
  simp only [resolveRelease, h', State.addressPath_eq]
  exact startCompute_full w rfl rfl rfl rfl

/-! ### Write-back -/

theorem writeback_some {s : State} {t : RegName} {r : Num64} (ht : s.currentTarget = some t)
    (hr : s.pendingResult = some r) : writeback s = some (s.busRelease.writeTarget t r) := by
  simp [writeback, ht, hr]

theorem computeRelease_main {s : State} {t : RegName} {r : Num64} (i : Nat)
    (ht : s.currentTarget = some t) (hr : s.pendingResult = some r) :
    computeRelease i .main s =
      .next ((s.busRelease.writeTarget t r).atResolve .inc .add cpName oneToken 1) := by
  simp [computeRelease, writeback_some ht hr, incrementCP_eq]

theorem computeRelease_inc {s : State} {t : RegName} {r : Num64} {i : Nat}
    (ht : s.currentTarget = some t) (hr : s.pendingResult = some r) (hi : i < s.mem.length) :
    computeRelease i .inc s = .next ((s.busRelease.writeTarget t r).startCell (i + 1)) := by
  simp [computeRelease, writeback_some ht hr, hi]

/-- Everything a next state of the write-back step can be. -/
theorem computeRelease_cases {i : Nat} {w : Which} {s t : State}
    (h : computeRelease i w s = .next t) :
    ∃ n r, s.currentTarget = some n ∧ s.pendingResult = some r ∧
      ((w = .main ∧ t = (s.busRelease.writeTarget n r).atResolve .inc .add cpName oneToken 1) ∨
        (w = .inc ∧ i < s.mem.length ∧ t = (s.busRelease.writeTarget n r).startCell (i + 1))) := by
  cases ht : s.currentTarget with
  | none => simp [computeRelease, writeback, ht] at h
  | some n =>
    cases hr : s.pendingResult with
    | none => simp [computeRelease, writeback, ht, hr] at h
    | some r =>
      refine ⟨n, r, rfl, rfl, ?_⟩
      cases w with
      | main =>
        rw [computeRelease_main i ht hr] at h
        exact .inl ⟨rfl, (Host.Outcome.next.inj h).symm⟩
      | inc =>
        by_cases hi : i < s.mem.length
        · rw [computeRelease_inc ht hr hi] at h
          exact .inr ⟨rfl, hi, (Host.Outcome.next.inj h).symm⟩
        · simp [computeRelease, writeback_some ht hr, hi] at h

end Sys2Proof.Machine
end

