-- ==== Sys2Proof/Laws/Binary64.lean ====
section
/-! SUPPORT. What packing and rounding give, field by field, the one fact about a NaN
result, and one equation for each irreducible definition. -/

namespace Sys2Proof.Machine

theorem roundMag_le_infMag (num den : Nat) : roundMag num den ≤ infMag := Nat.min_le_right _ _

theorem pack_toNat (neg : Bool) {m : Nat} (h : m ≤ infMag) :
    (pack neg m).toNat = (if neg then 2 ^ 63 else 0) + m := by
  have hm : m ≤ 2047 * 2 ^ 52 := h
  unfold pack
  rw [BitVec.toNat_ofNat]
  apply Nat.mod_eq_of_lt
  split <;> omega

theorem expOf_pack (neg : Bool) {m : Nat} (h : m ≤ infMag) : expOf (pack neg m) = m / 2 ^ 52 := by
  have hm : m ≤ 2047 * 2 ^ 52 := h
  simp only [expOf, BitVec.extractLsb'_toNat, pack_toNat neg h, Nat.shiftRight_eq_div_pow]
  cases neg <;> simp <;> omega

theorem fracOf_pack (neg : Bool) {m : Nat} (h : m ≤ infMag) : fracOf (pack neg m) = m % 2 ^ 52 := by
  have hm : m ≤ 2047 * 2 ^ 52 := h
  simp only [fracOf, BitVec.extractLsb'_toNat, pack_toNat neg h]
  cases neg
  · simp
  · simp only [if_true, Nat.shiftRight_zero]
    omega

theorem signOf_pack (neg : Bool) {m : Nat} (h : m ≤ infMag) : signOf (pack neg m) = neg := by
  have hm : m ≤ 2047 * 2 ^ 52 := h
  simp only [signOf, BitVec.getLsbD, pack_toNat neg h, Nat.testBit_eq_decide_div_mod_eq]
  cases neg <;> simp <;> omega

/-- A packed magnitude is never a NaN. -/
theorem isNaN_pack (neg : Bool) {m : Nat} (h : m ≤ infMag) : isNaN (pack neg m) = false := by
  have hm : m ≤ 2047 * 2 ^ 52 := h
  rw [isNaN, expOf_pack neg h, fracOf_pack neg h]
  by_contra hc
  simp only [Bool.not_eq_false, Bool.and_eq_true, beq_iff_eq, bne_iff_ne] at hc
  omega

/-- A packed magnitude is finite exactly below the infinity. -/
theorem isFinite_pack (neg : Bool) {m : Nat} (h : m ≤ infMag) :
    isFinite (pack neg m) = true ↔ m < infMag := by
  have hm : m ≤ 2047 * 2 ^ 52 := h
  rw [isFinite, expOf_pack neg h, bne_iff_ne]
  show _ ↔ m < 2047 * 2 ^ 52
  omega

/-- R98 item 6: whatever the free pattern is, the result is a NaN. -/
theorem isNaN_nanResult (op : AluOp) (x y : Num64) : isNaN (nanResult op x y) = true := by
  unfold nanResult
  split
  · assumption
  · decide

/-- Every field of a pattern, in terms of its number. -/
theorem fields_toNat (d : Num64) :
    signOf d = decide (2 ^ 63 ≤ d.toNat) ∧ expOf d = d.toNat / 2 ^ 52 % 2 ^ 11 ∧
      fracOf d = d.toNat % 2 ^ 52 := by
  have := d.isLt
  simp only [signOf, expOf, fracOf, BitVec.extractLsb'_toNat, BitVec.getLsbD,
    Nat.testBit_eq_decide_div_mod_eq, Nat.shiftRight_eq_div_pow]
  refine ⟨?_, trivial, by simp⟩
  rw [decide_eq_decide]
  omega

/-! ### The irreducible definitions, opened once -/

theorem ofInt_eq (v : Int) :
    ofInt v = pack (decide (v < 0)) (roundMag (v.natAbs * oneUnits) 1) := by unfold ofInt; rfl

theorem alu_add (x y : Num64) : alu .add x y = addNum (nanResult .add x y) x y := by
  unfold alu; rfl

theorem alu_sub (x y : Num64) : alu .sub x y = addNum (nanResult .sub x y) x (negate y) := by
  unfold alu; rfl

theorem alu_mul (x y : Num64) : alu .mul x y = mulNum (nanResult .mul x y) x y := by
  unfold alu; rfl

theorem alu_div (x y : Num64) : alu .div x y = divNum (nanResult .div x y) x y := by
  unfold alu; rfl

theorem isNaN_ofInt (v : Int) : isNaN (ofInt v) = false := by
  rw [ofInt_eq]
  exact isNaN_pack _ (roundMag_le_infMag _ _)

end Sys2Proof.Machine
end

