-- ==== Sys2Proof/Laws/HostOps.lean ====
section
/-! SUPPORT. What a load can answer, one equation for each case (R128), and the fields of what every
accepted load does first (R127, R129). -/

namespace Sys2Proof.Machine

/-! ### What an accepted load does first -/

theorem State.loadClear_keep {s : State} (h : s.params.clearOnLoad = false) :
    s.loadClear = { s with mem := [], seq := 0 } := by simp [State.loadClear, h]

theorem State.loadClear_reset {s : State} (h : s.params.clearOnLoad = true) :
    s.loadClear = State.clearRegisters { s with mem := [], seq := 0 } := by
  simp [State.loadClear, h]

@[simp] theorem State.loadClear_mem (s : State) : s.loadClear.mem = [] := by
  unfold State.loadClear; dsimp only; split <;> rfl

@[simp] theorem State.loadClear_seq (s : State) : s.loadClear.seq = 0 := by
  unfold State.loadClear; dsimp only; split <;> rfl

@[simp] theorem State.loadClear_cycleTime (s : State) : s.loadClear.cycleTime = s.cycleTime := by
  unfold State.loadClear; dsimp only; split <;> rfl

@[simp] theorem State.loadClear_busActive (s : State) : s.loadClear.busActive = s.busActive := by
  unfold State.loadClear; dsimp only; split <;> rfl

@[simp] theorem State.loadClear_busMessage (s : State) : s.loadClear.busMessage = s.busMessage := by
  unfold State.loadClear; dsimp only; split <;> rfl

@[simp] theorem State.loadClear_phase (s : State) : s.loadClear.phase = s.phase := by
  unfold State.loadClear; dsimp only; split <;> rfl

@[simp] theorem State.loadClear_fault (s : State) : s.loadClear.fault = s.fault := by
  unfold State.loadClear; dsimp only; split <;> rfl

@[simp] theorem State.loadClear_refused (s : State) : s.loadClear.refused = s.refused := by
  unfold State.loadClear; dsimp only; split <;> rfl

@[simp] theorem State.loadClear_params (s : State) : s.loadClear.params = s.params := by
  unfold State.loadClear; dsimp only; split <;> rfl

/-! ### The load, case by case -/

theorem loadProgram_frozen {s : State} (h : ¬ s.Live) (p : Text) (n : Nat) :
    s.loadProgram p n = s := by
  have hm : (s.fault.isSome || s.refused.isSome) = true := by
    cases hf : s.fault <;> cases hr : s.refused <;> simp [State.Live, hf, hr] at h ⊢
  simp [State.loadProgram, hm]

theorem loadProgram_running {s : State} (h : s.Live) (hp : s.phase ≠ .idle) (p : Text) (n : Nat) :
    s.loadProgram p n = s.refuse .reloadRace := by
  simp [State.loadProgram, h.1, h.2, hp]

theorem loadProgram_invalid {s : State} {p : Text} {n : Nat} (h : s.Live) (hp : s.phase = .idle)
    (hn : p = [] ∨ n = 0) : s.loadProgram p n = s.loadClear := by
  rcases hn with rfl | rfl <;> simp [State.loadProgram, h.1, h.2, hp]

theorem loadProgram_valid {s : State} {p : Text} {n : Nat} (h : s.Live) (hp : s.phase = .idle)
    (h0 : p ≠ []) (hn : n ≠ 0) :
    s.loadProgram p n =
      { s.loadClear with cycleTime := some n, mem := buildImage p }.startCell 0 := by
  simp [State.loadProgram, h.1, h.2, hp, h0, hn]

end Sys2Proof.Machine
end

