-- ==== Sys2Proof/Laws/Memory.lean ====
section
/-! SUPPORT. Memory keeps its canonical form (R38): the empty memory has it, the image of every
program text has it (R42), and replacing one cell by a line keeps it. -/

namespace Sys2Proof.Machine

theorem Memory.wf_nil : Memory.wf [] = true := rfl

theorem reset_memory_wf : Memory.wf State.reset.mem = true := rfl

theorem Memory.wf_iff (m : List MemCell) :
    Memory.wf m = true ↔ ∀ c ∈ m, c.address = .immediate ∧ isCellText c.value = true := by
  simp [Memory.wf]

/-- R41: the substrings between separators hold none of them. -/
theorem pieces_no_sep (sep : Char → Bool) (l : Text) :
    ∀ p ∈ pieces sep l, ∀ c ∈ p, sep c = false := by
  induction l with
  | nil => simp [pieces]
  | cons c cs ih =>
    unfold pieces
    by_cases hc : sep c = true
    · simpa [hc] using ih
    · cases hp : pieces sep cs with
      | nil => simp [hc]
      | cons q qs =>
        rw [hp] at ih
        simp only [hc, Bool.false_eq_true, if_false, List.mem_cons, forall_eq_or_imp] at ih ⊢
        exact ⟨⟨trivial, ih.1⟩, ih.2⟩

/-- R41, R38: every line of a program text is one a cell may hold. -/
theorem programLines_cellText (p : Text) : ∀ l ∈ programLines p, isCellText l = true := by
  intro l hl
  simp only [programLines, List.mem_filter] at hl
  simp only [isCellText, Bool.and_eq_true, List.all_eq_true, Bool.not_eq_true']
  exact ⟨by simpa using hl.2, pieces_no_sep isLF p l hl.1⟩

/-- R42: the image of a program text is well-formed memory. -/
theorem buildImage_wf (p : Text) : Memory.wf (buildImage p) = true := by
  rw [Memory.wf_iff]
  intro c hc
  obtain ⟨l, hl, rfl⟩ := List.mem_map.1 hc
  exact ⟨rfl, programLines_cellText p l hl⟩

/-- Replacing one cell by a line of text keeps the form. -/
theorem Memory.wf_set {m : List MemCell} (h : Memory.wf m = true) (i : Nat) {l : Text}
    (hl : isCellText l = true) : Memory.wf (m.set i (MemCell.ofLine l)) = true := by
  rw [Memory.wf_iff] at h ⊢
  intro c hc
  rcases List.mem_or_eq_of_mem_set hc with hc | rfl
  · exact h c hc
  · exact ⟨rfl, hl⟩

/-- R42: addresses are positions in source order. -/
theorem buildImage_values (p : Text) : (buildImage p).map (·.value) = programLines p := by
  simp [buildImage, MemCell.ofLine, Function.comp_def]

end Sys2Proof.Machine
end

