-- ==== Sys2Proof/Laws/Operands.lean ====
section
/-! SUPPORT. What the classes of operand-two say of its value (R59, R60), and the pieces of a text (R41,
R52). -/

namespace Sys2Proof.Machine

/-- R59: an accepted literal is not zero and within `LIT_MAX`. -/
theorem classify_lit {b : Token} {v : Int} (h : classify b = .lit v) :
    v ≠ 0 ∧ v.natAbs ≤ litMax := by
  unfold classify at h
  split at h
  · split at h
    · cases h
    · split at h
      · cases h; exact ⟨‹_›, ‹_›⟩
      · cases h
  · split at h <;> cases h

/-- A text has at least one piece. -/
theorem pieces_ne_nil (sep : Char → Bool) (l : Text) : pieces sep l ≠ [] := by
  induction l with
  | nil => simp [pieces]
  | cons c cs ih =>
    unfold pieces
    split
    · simp
    · split <;> simp

/-- A text without separators is one piece. -/
theorem pieces_single (sep : Char → Bool) (l : Text) (h : ∀ c ∈ l, sep c = false) :
    pieces sep l = [l] := by
  induction l with
  | nil => rfl
  | cons c cs ih =>
    rw [pieces, ih (fun d hd => h d (by simp [hd]))]
    simp [h c (by simp)]

/-- A separator ends the piece before it, and what follows is split on its own. -/
theorem pieces_append_sep (sep : Char → Bool) (l : Text) (h : ∀ c ∈ l, sep c = false) (d : Char)
    (hd : sep d = true) (r : Text) : pieces sep (l ++ d :: r) = l :: pieces sep r := by
  induction l with
  | nil => simp [pieces, hd]
  | cons c cs ih =>
    rw [List.cons_append, pieces, ih (fun e he => h e (by simp [he]))]
    simp [h c (by simp)]

end Sys2Proof.Machine
end

