-- ==== Sys2Proof/Laws/PerInstr.lean ====
section
/-! SUPPORT. For every instruction: the line of a well-formed instruction is one that a memory cell
may hold (R38): not empty and free of LF. -/

namespace Sys2Proof.Laws.EncodesCell

/-- R38, R51: the encoded line is a cell's text. -/
def Statement (i : Instr) : Prop := i.wf = true → Machine.isCellText (encode i) = true

theorem isLF_isWS (c : Char) (h : Machine.isLF c = true) : Machine.isWS c = true := by
  simp only [Machine.isLF, beq_iff_eq] at h
  simp [Machine.isWS, h]

/-- R6: a token can stand in a cell. -/
theorem token_cellText {t : Token} (h : Machine.isToken t = true) :
    Machine.isCellText t = true := by
  simp only [Machine.isToken, Bool.and_eq_true, List.all_eq_true] at h
  simp only [Machine.isCellText, Bool.and_eq_true, List.all_eq_true]
  refine ⟨h.1, fun c hc => ?_⟩
  have := h.2 c hc
  by_contra hn
  simp [isLF_isWS c (by simpa using hn)] at this

/-- Tokens joined by spaces can stand in a cell. -/
theorem joinTokens_cellText (ts : List Token) (h : ∀ t ∈ ts, Machine.isToken t = true) :
    Machine.isCellText (joinTokens ts) = true := by
  induction ts with
  | nil => decide
  | cons t ts ih =>
    have ht := token_cellText (h t (by simp))
    cases ts with
    | nil => exact ht
    | cons u us =>
      have hr := ih (fun t ht => h t (by simp [ht]))
      simp only [Machine.isCellText, Bool.and_eq_true, List.all_eq_true, joinTokens,
        List.mem_append, List.mem_cons] at ht hr ⊢
      refine ⟨by simp, ?_⟩
      rintro c (hc | rfl | hc)
      · exact ht.2 c hc
      · decide
      · exact hr.2 c hc

/-- The opcode tokens are tokens. -/
theorem opcode_isToken : ∀ t ∈ opcodeTokens, Machine.isToken t = true := by decide

theorem three {op a b : Token} (ho : Machine.isToken op = true)
    (h : (Machine.isToken a && Machine.isToken b) = true) :
    Machine.isCellText (joinTokens [op, a, b]) = true := by
  simp only [Bool.and_eq_true] at h
  refine joinTokens_cellText _ (fun t ht => ?_)
  simp only [List.mem_cons, List.not_mem_nil, or_false] at ht
  rcases ht with rfl | rfl | rfl
  exacts [ho, h.1, h.2]

theorem mov (a : RegName) (b : Token) : Statement (.mov a b) :=
  three (opcode_isToken _ (by simp [opcodeTokens]))

theorem add (a : RegName) (b : Token) : Statement (.add a b) :=
  three (opcode_isToken _ (by simp [opcodeTokens]))

theorem sub (a : RegName) (b : Token) : Statement (.sub a b) :=
  three (opcode_isToken _ (by simp [opcodeTokens]))

theorem mul (a : RegName) (b : Token) : Statement (.mul a b) :=
  three (opcode_isToken _ (by simp [opcodeTokens]))

theorem div (a : RegName) (b : Token) : Statement (.div a b) :=
  three (opcode_isToken _ (by simp [opcodeTokens]))

theorem decodeSkip (ts : List Token) : Statement (.decodeSkip ts) := by
  intro h
  simp only [Instr.wf, Bool.and_eq_true, List.all_eq_true] at h
  exact joinTokens_cellText ts h.2

theorem unknownOpcode (op a b : Token) : Statement (.unknownOpcode op a b) := by
  intro h
  simp only [Instr.wf, Bool.and_eq_true] at h
  exact three h.1.1.1 (by simp [h.1.1.2, h.1.2])

end Sys2Proof.Laws.EncodesCell
end

