-- ==== Sys2Proof/Laws/Registers.lean ====
section
/-! SUPPORT. Reading registers after writing them (R15, R96). -/

namespace Sys2Proof.Machine

/-- The names of the entries stay as they are. -/
theorem State.writeReg_names (s : State) (n : RegName) (v : Num64) :
    (s.writeReg n v).x.map Prod.fst = s.x.map Prod.fst := by
  simp only [State.writeReg_x, List.map_map]
  exact List.map_congr_left (fun e _ => by by_cases h : e.1 = n <;> simp [h])

theorem lookupReg_write (x : List (RegName × Option Reg)) (n m : RegName) (v : Num64) :
    lookupReg (x.map (fun e => if e.1 = n then (e.1, some ⟨.direct, v⟩) else e)) m =
      if m = n ∧ n ∈ x.map Prod.fst then some ⟨.direct, v⟩ else lookupReg x m := by
  induction x with
  | nil => simp [lookupReg]
  | cons e es ih =>
    obtain ⟨k, r⟩ := e
    by_cases hk : k = n
    · by_cases hm : m = n
      · simp [lookupReg, hk, hm]
      · simp [lookupReg, hk, hm, Ne.symm hm, ih]
    · by_cases hm : k = m
      · have : m ≠ n := fun h => hk (hm.trans h)
        simp [lookupReg, hm, this]
      · simp only [List.map_cons, if_neg hk, lookupReg, if_neg hm, ih, List.mem_cons,
          show ¬ n = k from Ne.symm hk, false_or]

/-- R15: a write to a name that has an entry is what the next read of it gives. -/
theorem State.readReg_writeReg_same {s : State} {n : RegName} (h : n ∈ s.x.map Prod.fst)
    (v : Num64) : (s.writeReg n v).readReg n = some ⟨.direct, v⟩ := by
  simp [State.readReg, lookupReg_write, h]

/-- R14: two different names are two different registers. -/
theorem State.readReg_writeReg_other {s : State} {n m : RegName} (h : m ≠ n) (v : Num64) :
    (s.writeReg n v).readReg m = s.readReg m := by
  simp [State.readReg, lookupReg_write, h]

/-- R17: a name without an entry is not written. -/
theorem State.writeReg_absent {s : State} {n : RegName} (h : n ∉ s.x.map Prod.fst) (v : Num64) :
    s.writeReg n v = s := by
  have : s.x.map (fun e => if e.1 = n then (e.1, some ⟨.direct, v⟩) else e) = s.x := by
    conv_rhs => rw [← List.map_id s.x]
    refine List.map_congr_left (fun e he => ?_)
    have : e.1 ≠ n := fun hen => h (hen ▸ List.mem_map_of_mem he)
    simp [this]
  simp [State.writeReg, this]

/-- A property of all register values, kept by a write of a value that has it. -/
theorem State.writeReg_forall {s : State} {n : RegName} {v : Num64} {P : Reg → Prop}
    (h : ∀ e ∈ s.x, ∀ r ∈ e.2, P r) (hv : P ⟨.direct, v⟩) :
    ∀ e ∈ (s.writeReg n v).x, ∀ r ∈ e.2, P r := by
  intro e he r hr
  simp only [State.writeReg_x, List.mem_map] at he
  obtain ⟨d, hd, rfl⟩ := he
  by_cases hn : d.1 = n
  · simp only [hn, if_true, Option.mem_def, Option.some.injEq] at hr
    exact hr ▸ hv
  · simp only [hn, if_false] at hr
    exact h d hd r hr

end Sys2Proof.Machine
end

