-- ==== Sys2Proof/Laws/Step.lean ====
section
/-! SUPPORT. What `mov` can answer (R83), what a meaning and a step can do, said once, and one equation
of `step` for each phase (R80). -/

namespace Sys2Proof.Machine

/-- Everything `mov` can answer. -/
theorem execMov_cases (a : RegName) (b : Token) (s : State) :
    (∃ v, a ∈ s.params.avail ∧ classify b = .lit v ∧
        execMov a b s = incrementCP (s.writeReg a (ofInt v))) ∨
      (a ∈ s.params.avail ∧ classify b = .unsettled ∧
        execMov a b s = .next (s.refuse .unsettledLiteral)) ∨
      ((a ∉ s.params.avail ∨ classify b = .zero ∨ classify b = .nonNumeric) ∧
        execMov a b s = incrementCP s) := by
  unfold execMov
  by_cases ha : a ∈ s.params.avail
  · rw [if_pos ha]
    cases hb : classify b with
    | lit v => exact .inl ⟨v, ha, rfl, rfl⟩
    | unsettled => exact .inr (.inl ⟨ha, rfl, rfl⟩)
    | zero => exact .inr (.inr ⟨.inr (.inl rfl), rfl⟩)
    | nonNumeric => exact .inr (.inr ⟨.inr (.inr rfl), rfl⟩)
  · rw [if_neg ha]
    exact .inr (.inr ⟨.inl ha, rfl⟩)

/-- R74: everything a meaning can answer: `IncrementCP` at its resolve hold, with at most one register
written by `mov`; the instruction's own resolve hold; a refusal of an unsettled literal; or the
compute stage on the stale slot. -/
theorem exec_cases (i : Instr) (s : State) :
    (∃ a b v, i = .mov a b ∧ a ∈ s.params.avail ∧ classify b = .lit v ∧
        exec i s = .next ((s.writeReg a (ofInt v)).atResolve .inc .add cpName oneToken 1)) ∨
      exec i s = .next (s.atResolve .inc .add cpName oneToken 1) ∨
      exec i s = .next (s.refuse .unsettledLiteral) ∨
      (∃ op a b v, s.isReg a ∧ classify b = .lit v ∧
        exec i s = .next (s.atResolve .main op a b v)) ∨
      exec i s = startCompute .main s := by
  have alu (op : AluOp) (a : RegName) (b : Token) (h : exec i s = dispatchAlu .main op a b s) :
      exec i s = .next (s.refuse .unsettledLiteral) ∨
      (∃ op a b v, s.isReg a ∧ classify b = .lit v ∧
        exec i s = .next (s.atResolve .main op a b v)) ∨
      exec i s = startCompute .main s := by
    rcases dispatchAlu_cases .main op a b s with ⟨v, ha, hb, h'⟩ | ⟨_, _, h'⟩ | ⟨_, h'⟩
    · exact .inr (.inl ⟨op, a, b, v, ha, hb, h.trans h'⟩)
    · exact .inl (h.trans h')
    · exact .inr (.inr (h.trans h'))
  cases i with
  | mov a b =>
    rcases execMov_cases a b s with ⟨v, ha, hb, h⟩ | ⟨_, _, h⟩ | ⟨_, h⟩
    · exact .inl ⟨a, b, v, rfl, ha, hb, h.trans (incrementCP_eq _)⟩
    · exact .inr (.inr (.inl h))
    · exact .inr (.inl (h.trans (incrementCP_eq _)))
  | add a b => exact .inr (.inr (alu .add a b rfl))
  | sub a b => exact .inr (.inr (alu .sub a b rfl))
  | mul a b => exact .inr (.inr (alu .mul a b rfl))
  | div a b => exact .inr (.inr (alu .div a b rfl))
  | decodeSkip ts => exact .inr (.inl (incrementCP_eq s))
  | unknownOpcode op a b => exact .inr (.inl (incrementCP_eq s))

/-! ### One equation of `step` for each phase -/

theorem step_faulted {s : State} {k : FaultKind} (h : s.fault = some k) :
    step s = .fault (.frozen k) := by
  unfold step; rw [h]

theorem step_refused {s : State} {k : RefusalKind} (hf : s.fault = none)
    (h : s.refused = some k) : step s = .refused (.frozen k) := by
  unfold step; rw [hf, h]

theorem step_idle {s : State} (h : s.Live) (hp : s.phase = .idle) : step s = .next s := by
  unfold step; rw [h.1, h.2]; simp only [hp]

theorem step_fetch {s : State} {i : Nat} {l : Text} {ins : Instr} (h : s.Live)
    (hp : s.phase = .fetchHold i) (hl : s.memRead i = some l)
    (hd : decode s.params.tokenizeStrict l = .ok ins) : step s = exec ins (s.fetched l) := by
  unfold step; rw [h.1, h.2]; simp only [hp, hl, hd]

theorem step_fetch_refused {s : State} {i : Nat} {l : Text} (h : s.Live)
    (hp : s.phase = .fetchHold i) (hl : s.memRead i = some l)
    (hd : decode s.params.tokenizeStrict l = .error .nonCanonicalLine) :
    step s = .next ((s.fetched l).refuse .nonCanonicalLine) := by
  unfold step; rw [h.1, h.2]; simp only [hp, hl, hd]

theorem step_resolve {s : State} {i : Nat} {w : Which} {op : AluOp} {a : RegName} {v : Num64}
    (h : s.Live) (hp : s.phase = .resolveHold i w op a v) :
    step s = resolveRelease w op a v s := by
  unfold step; rw [h.1, h.2]; simp only [hp]

theorem step_compute {s : State} {i : Nat} {w : Which} (h : s.Live)
    (hp : s.phase = .computeHold i w) : step s = computeRelease i w s := by
  unfold step; rw [h.1, h.2]; simp only [hp]

/-- A step to a next state starts from a state without marks. -/
theorem step_live {s t : State} (h : step s = .next t) : s.Live := by
  cases hf : s.fault with
  | some k => rw [step_faulted hf] at h; cases h
  | none =>
    cases hr : s.refused with
    | some k => rw [step_refused hf hr] at h; cases h
    | none => exact ⟨hf, hr⟩

/-- R80: everything a next state of a step can be, by the phase it starts from. -/
theorem step_cases {s t : State} (h : step s = .next t) :
    (s.phase = .idle ∧ t = s) ∨
      (∃ i l ins, s.phase = .fetchHold i ∧ s.memRead i = some l ∧
        decode s.params.tokenizeStrict l = .ok ins ∧ exec ins (s.fetched l) = .next t) ∨
      (∃ i l, s.phase = .fetchHold i ∧ s.memRead i = some l ∧
        t = (s.fetched l).refuse .nonCanonicalLine) ∨
      (∃ i w op a v, s.phase = .resolveHold i w op a v ∧ resolveRelease w op a v s = .next t) ∨
      (∃ i w, s.phase = .computeHold i w ∧ computeRelease i w s = .next t) := by
  have hlive := step_live h
  cases hp : s.phase with
  | idle =>
    rw [step_idle hlive hp] at h
    exact .inl ⟨rfl, (Host.Outcome.next.inj h).symm⟩
  | fetchHold i =>
    cases hl : s.memRead i with
    | none => simp [step, hlive.1, hlive.2, hp, hl] at h
    | some l =>
      cases hd : decode s.params.tokenizeStrict l with
      | ok ins =>
        rw [step_fetch hlive hp hl hd] at h
        exact .inr (.inl ⟨i, l, ins, rfl, hl, hd, h⟩)
      | error e =>
        cases e
        rw [step_fetch_refused hlive hp hl hd] at h
        exact .inr (.inr (.inl ⟨i, l, rfl, hl, (Host.Outcome.next.inj h).symm⟩))
  | resolveHold i w op a v =>
    rw [step_resolve hlive hp] at h
    exact .inr (.inr (.inr (.inl ⟨i, w, op, a, v, rfl, h⟩)))
  | computeHold i w =>
    rw [step_compute hlive hp] at h
    exact .inr (.inr (.inr (.inr ⟨i, w, rfl, h⟩)))

end Sys2Proof.Machine
end

