-- ==== Sys2Proof/Tests/Slice0.lean ====
section
/-! SUPPORT. Our own tests. Expected results are the spec's (95_test_vectors.md, cited by vector), or
words written out from 30_encoding.md; the witnesses show that the hypotheses of the statements can be
met together. -/

namespace Sys2Proof.Tests

/- Kernel evaluations one after another: each waiting thread would reserve its own large stack. -/
set_option Elab.async false

open Sys2Proof.Machine

/-! ### Well-formedness: an ill-formed term for each check is refused -/

theorem test_wf_mov_ok : (Instr.mov "A".toList "5".toList).wf = true := by decide

theorem test_wf_refuses_empty_operand : (Instr.mov [] "5".toList).wf = false := by decide

theorem test_wf_refuses_space_in_operand :
    (Instr.add "A".toList "1 2".toList).wf = false ∧ (Instr.sub "A\t".toList "1".toList).wf = false ∧
    (Instr.mul "A".toList []).wf = false ∧ (Instr.div "\n".toList "1".toList).wf = false := by decide

theorem test_wf_refuses_long_skip :
    (Instr.decodeSkip ["a".toList, "b".toList, "c".toList]).wf = false := by decide

theorem test_wf_refuses_empty_token_in_skip : (Instr.decodeSkip [[]]).wf = false := by decide

theorem test_wf_refuses_known_opcode :
    (Instr.unknownOpcode "mov".toList "A".toList "5".toList).wf = false := by decide

theorem test_wf_refuses_bad_unknown :
    (Instr.unknownOpcode [] "A".toList "5".toList).wf = false ∧
    (Instr.unknownOpcode "x".toList [] "5".toList).wf = false ∧
    (Instr.unknownOpcode "x".toList "A".toList []).wf = false := by decide

/-! ### Decoding: lines written out character by character from format T3 (R51) -/

theorem test_decode_mov :
    decode false ['m', 'o', 'v', ' ', 'A', ' ', '5'] = .ok (.mov ['A'] ['5']) := by decide

theorem test_decode_add :
    decode false ['a', 'd', 'd', ' ', 'R', '1', ' ', '3'] = .ok (.add ['R', '1'] ['3']) := by decide

theorem test_decode_sub :
    decode false ['s', 'u', 'b', ' ', 'A', ' ', '-', '3'] = .ok (.sub ['A'] ['-', '3']) := by decide

theorem test_decode_mul :
    decode false ['m', 'u', 'l', ' ', 'A', ' ', '3'] = .ok (.mul ['A'] ['3']) := by decide

theorem test_decode_div :
    decode false ['d', 'i', 'v', ' ', 'A', ' ', '4'] = .ok (.div ['A'] ['4']) := by decide

/-- V-TOK-6: a line of whitespace alone has no tokens; strict tokenizing refuses it. -/
theorem test_decode_skip :
    decode false [' ', ' ', ' '] = .ok (.decodeSkip []) ∧
    decode true [' ', ' ', ' '] = .error .nonCanonicalLine ∧
    decode false ['n', 'o', 'p'] = .ok (.decodeSkip [['n', 'o', 'p']]) := by decide

/-- V-TOK-7: opcodes are case-sensitive. -/
theorem test_decode_unknown :
    decode false ['M', 'O', 'V', ' ', 'A', ' ', '5'] =
      .ok (.unknownOpcode ['M', 'O', 'V'] ['A'] ['5']) := by decide

/-- V-TOK-3, V-TOK-4: U+000D is whitespace, and a fourth token is ignored. -/
theorem test_decode_noncanonical :
    decode false ['m', 'o', 'v', ' ', 'A', ' ', '5', '\r'] = .ok (.mov ['A'] ['5']) ∧
    decode true ['m', 'o', 'v', ' ', 'A', ' ', '5', '\r'] = .error .nonCanonicalLine ∧
    decode true ['m', 'o', 'v', ' ', 'A', ' ', '7', ' ', '9'] = .ok (.mov ['A'] ['7']) := by decide

/-- "mov A 5" as bytes, the first character in the lowest bits (log entry 11). -/
theorem test_decodeTableWord :
    decodeTableWord 56 0x35204120766f6d = some (.mov ['A'] ['5']) := by decide +kernel

/-! ### Literals: V-LIT-1 to V-LIT-11 -/

theorem test_classify_lit :
    classify "+5".toList = .lit 5 ∧ classify "-5".toList = .lit (-5) ∧
    classify "007".toList = .lit 7 ∧
    classify "-9007199254740992".toList = .lit (-9007199254740992) := by decide +kernel

theorem test_classify_rejected :
    classify "+000".toList = .zero ∧ classify "-0".toList = .zero ∧
    classify "-".toList = .nonNumeric ∧ classify "NaN".toList = .nonNumeric := by decide +kernel

theorem test_classify_unsettled :
    classify "9007199254740993".toList = .unsettled ∧ classify "1.5".toList = .unsettled ∧
    classify "--5".toList = .unsettled ∧ classify "+-5".toList = .unsettled ∧
    classify "5abc".toList = .unsettled ∧ classify "+Infinity".toList = .unsettled := by
  decide +kernel

/-! ### Binary64: the vectors' patterns -/

/-- V-LIT-5, V-LIT-6, V-MOV-1. -/
theorem test_ofInt :
    ofInt 9007199254740992 = 0x4340000000000000#64 ∧
    ofInt (-9007199254740992) = 0xC340000000000000#64 ∧ ofInt 5 = 0x4014000000000000#64 := by
  decide +kernel

/-- V-ADD-2, V-ADD-3, V-ADD-5, V-ADD-7, V-SUB-3, V-SUB-4, V-INC-7. -/
theorem test_alu_add_sub :
    alu .add 0x4340000000000000#64 (ofInt 1) = 0x4340000000000000#64 ∧
    alu .add 0x4340000000000000#64 (ofInt 2) = 0x4340000000000001#64 ∧
    alu .add 0x7FEFFFFFFFFFFFFF#64 (ofInt 9007199254740992) = 0x7FEFFFFFFFFFFFFF#64 ∧
    alu .add 0xFFF0000000000000#64 (ofInt 5) = 0xFFF0000000000000#64 ∧
    alu .sub 0x8000000000000000#64 (ofInt 5) = 0xC014000000000000#64 ∧
    alu .sub 0xC340000000000000#64 (ofInt 1) = 0xC340000000000000#64 ∧
    alu .add 0x8000000000000000#64 (ofInt 1) = ofInt 1 := by decide +kernel

/-- V-MUL-1, V-MUL-2, V-MUL-5, V-MUL-7. -/
theorem test_alu_mul :
    alu .mul (ofInt (-30)) (ofInt (-3)) = 0x4056800000000000#64 ∧
    alu .mul 0#64 (ofInt (-3)) = 0x8000000000000000#64 ∧
    alu .mul 0xFE70000000000000#64 (ofInt 9007199254740992) = 0xFFF0000000000000#64 ∧
    alu .mul 0x4340000000000000#64 (ofInt 9007199254740992) = 0x4690000000000000#64 := by
  decide +kernel

/-- V-DIV-2, V-DIV-3, V-DIV-6, V-DIV-8 to V-DIV-11, V-DIV-13. -/
theorem test_alu_div :
    alu .div (ofInt 1) (ofInt 3) = 0x3FD5555555555555#64 ∧
    alu .div (ofInt 5) (ofInt 3) = 0x3FFAAAAAAAAAAAAB#64 ∧
    alu .div 0#64 (ofInt (-5)) = 0x8000000000000000#64 ∧
    alu .div 0x0010000000000000#64 (ofInt 2) = 0x0008000000000000#64 ∧
    alu .div 0x0000000000000001#64 (ofInt 2) = 0x0000000000000000#64 ∧
    alu .div 0x8000000000000001#64 (ofInt 2) = 0x8000000000000000#64 ∧
    alu .div 0x4340000000000000#64 (ofInt 3) = 0x4325555555555555#64 ∧
    alu .div (ofInt (-3)) 0#64 = 0xFFF0000000000000#64 := by decide +kernel

/-! ### Cells: the state S0 of 95_test_vectors.md, with the line under test as cell 0 -/

def nameA : RegName := "A".toList

/-- The set `AVAIL` of the cell vectors. -/
def testAvail : List RegName := ["A".toList, "B".toList, "R1".toList]

/-- S0: `CP = 5`, `slot = (add, 4, 1) → 5 @ CP`, `A` as given, in the fetch hold of the line. -/
def s0 (a : Option Num64) (line : String) : State :=
  { (State.create testAvail false false).loadProgram line.toList 10 with
    cp := ⟨.direct, ofInt 5⟩
    x := [(nameA, a.map (fun v => ⟨.direct, v⟩)), ("B".toList, none), ("R1".toList, none)]
    currentTarget := some cpName
    pendingOpcode := some .add
    pendingOperandOne := some (ofInt 4)
    pendingOperandTwo := some (ofInt 1)
    pendingResult := some (ofInt 5) }

/-- The first cell of a first run (V-STALE-2 to V-STALE-5). -/
def first (line : String) : State :=
  (State.create [nameA] false false).loadProgram line.toList 10

/-- The next state, if there is one. -/
def nextOf (r : Result) : Option State :=
  match r with
  | .next s => some s
  | .fault _ => none
  | .refused _ => none

/-- A next state that passes a check exists. -/
theorem next_of_check {r : Result} (p : State → Bool) (h : (nextOf r).any p = true) :
    ∃ t, r = .next t ∧ p t = true := by
  cases r with
  | next s => exact ⟨s, rfl, h⟩
  | fault k => cases h
  | refused k => cases h

/-- `A`, `CP` and the marks after a cell. -/
structure CellEnd where
  a : Option Reg
  cp : Num64
  fault : Option FaultKind
  refused : Option RefusalKind
  deriving DecidableEq, Repr

/-- How a cell ends (R76). -/
def cellEnd (s : State) : Option CellEnd :=
  (nextOf (executeCell 0 s)).map (fun t => ⟨t.readReg nameA, t.cp.value, t.fault, t.refused⟩)

/-- V-MOV-1, V-MOV-2, V-MOV-8. -/
theorem test_mov_cell :
    cellEnd (s0 none "mov A 5") = some ⟨some ⟨.direct, 0x4014000000000000#64⟩, ofInt 6, none, none⟩ ∧
    cellEnd (s0 (some (ofInt 7)) "mov A 0") = some ⟨some ⟨.direct, ofInt 7⟩, ofInt 6, none, none⟩ ∧
    cellEnd (s0 (some (ofInt 1)) "mov A 9007199254740993") =
      some ⟨some ⟨.direct, ofInt 1⟩, ofInt 5, none, some .unsettledLiteral⟩ := by decide +kernel

/-- V-MOV-6, V-MOV-9. -/
theorem test_mov_dropped :
    cellEnd (s0 none "mov CP 9") = some ⟨none, ofInt 6, none, none⟩ ∧
    cellEnd (s0 none "mov X 1.5") = some ⟨none, ofInt 6, none, none⟩ := by decide +kernel

/-- V-ADD-1, V-ADD-10, V-ADD-14, V-ADD-17. -/
theorem test_add_cell :
    cellEnd (s0 (some (ofInt 10)) "add A 3") =
      some ⟨some ⟨.direct, 0x402A000000000000#64⟩, ofInt 6, none, none⟩ ∧
    cellEnd (s0 none "add CP 10") = some ⟨none, ofInt 16, none, none⟩ ∧
    cellEnd (s0 none "add 12 5") = some ⟨none, ofInt 6, none, none⟩ ∧
    cellEnd (s0 none "add A 3") = some ⟨none, ofInt 5, some .uninitializedRead, none⟩ := by
  decide +kernel

/-- V-STALE-2: frozen in the step that releases the fetch hold, `IR` written and the bus released. -/
theorem test_add_empty_staging :
    (nextOf (step (first "add A 0"))).any (fun t =>
      t.fault = some .emptyStaging ∧ t.ir = some ⟨.direct, "add A 0".toList⟩ ∧
        t.busActive = false ∧ t.cp.value = 0#64 ∧ t.pendingOpcode = none ∧ t.seq = 0) := by
  decide +kernel

/-- V-SUB-2, V-SUB-7, V-SUB-8. -/
theorem test_sub_cell :
    cellEnd (s0 (some (ofInt 5)) "sub A 5") = some ⟨some ⟨.direct, 0#64⟩, ofInt 6, none, none⟩ ∧
    cellEnd (s0 none "sub CP 1") = some ⟨none, ofInt 5, none, none⟩ ∧
    cellEnd (s0 (some (ofInt 10)) "sub A 0") =
      some ⟨some ⟨.direct, ofInt 10⟩, ofInt 6, none, none⟩ := by decide +kernel

/-- V-MUL-8, V-MUL-9. -/
theorem test_mul_cell :
    cellEnd (s0 (some (ofInt 7)) "mul A 0") = some ⟨some ⟨.direct, ofInt 7⟩, ofInt 6, none, none⟩ ∧
    cellEnd (s0 (some (ofInt 7)) "mul A 3") =
      some ⟨some ⟨.direct, 0x4035000000000000#64⟩, ofInt 6, none, none⟩ := by decide +kernel

/-- V-DIV-1, V-DIV-12. -/
theorem test_div_cell :
    cellEnd (s0 (some (ofInt (-30))) "div A 4") =
      some ⟨some ⟨.direct, 0xC01E000000000000#64⟩, ofInt 6, none, none⟩ ∧
    cellEnd (s0 (some (ofInt 10)) "div A 0") =
      some ⟨some ⟨.direct, ofInt 10⟩, ofInt 6, none, none⟩ := by decide +kernel

/-- V-DEC-2, and V-STALE-4: a skip as the first cell fills the slot. -/
theorem test_skip_cell :
    cellEnd (s0 (some (ofInt 9)) "mov A") = some ⟨some ⟨.direct, ofInt 9⟩, ofInt 6, none, none⟩ ∧
    cellEnd (first "nop") = some ⟨none, ofInt 1, none, none⟩ := by decide +kernel

/-- V-DEC-4, V-DEC-6. -/
theorem test_unknown_cell :
    cellEnd (s0 none "jmp 0 0") = some ⟨none, ofInt 6, none, none⟩ ∧
    cellEnd (s0 (some (ofInt 1)) "ADD A 1.5") =
      some ⟨some ⟨.direct, ofInt 1⟩, ofInt 6, none, none⟩ := by decide +kernel

/-- V-BUS-3: after the fetch hold of `mov A 5`, `A` is written and `IncrementCP` holds. -/
theorem test_mov_step :
    (nextOf (step (s0 none "mov A 5"))).any (fun t =>
      t.phase = .resolveHold 0 .inc .add cpName (ofInt 1) ∧
        t.readReg nameA = some ⟨.direct, ofInt 5⟩ ∧ t.busActive) := by
  decide +kernel

/-- V-BUS-2: a rejected `add` goes straight to the compute hold of the stale slot. -/
theorem test_rejected_step :
    (nextOf (step (s0 (some (ofInt 5)) "add A 0"))).any (fun t =>
      t.phase = .computeHold 0 .main ∧ t.pendingResult = some (ofInt 5)) := by decide +kernel

/-- A placed instruction is run by the next step. -/
theorem test_withFetchWord :
    (nextOf (step (State.reset.withFetchWord 56 0x35204120766f6d))).any (fun t =>
      t.ir = some ⟨.direct, "mov A 5".toList⟩ ∧
        t.phase = .resolveHold 0 .inc .add cpName (ofInt 1)) := by
  decide +kernel

/-! ### Loader and host -/

/-- V-LOAD-3, V-LOAD-4, V-LOAD-5. -/
theorem test_programLines :
    programLines "\n\n\n".toList = [] ∧
    programLines "mov A 5\n\nadd A 2\n".toList = ["mov A 5".toList, "add A 2".toList] ∧
    programLines "mov A 5\r\nadd A 2\r\n".toList = ["mov A 5\r".toList, "add A 2\r".toList] := by
  decide

/-- V-LOAD-7, V-LOAD-8, V-LOAD-9. -/
theorem test_host_refusals :
    ((first "nop").loadProgram "mov A 1".toList 10).refused = some .reloadRace ∧
    (((first "nop").raiseFault .uninitializedRead).loadProgram "mov A 1".toList 10).refused = none ∧
    (State.create ["CP".toList, "A".toList] false false).refused = some .badConfig := by
  decide +kernel

/-- V-LOAD-1 and V-LOAD-10: an invalid load clears memory, and registers only under the parameter. -/
theorem test_invalid_loads :
    ({ s0 (some (ofInt 5)) "nop" with phase := .idle }.loadProgram [] 100).readReg nameA =
      some ⟨.direct, ofInt 5⟩ ∧
    ({ s0 (some (ofInt 7)) "nop" with
        phase := .idle, params := ⟨testAvail, false, true⟩ }.loadProgram [] 10).readReg nameA =
      none := by decide +kernel

/-- V-LOAD-2 after a run of one cell: the registers and the cycle time stay, and `seq` is inside the
emptied memory (R24; log entry 14). -/
theorem test_invalid_load_seq :
    ({ s0 (some (ofInt 5)) "nop" with phase := .idle, seq := 1 }.loadProgram "mov A 7".toList 0).mem = [] ∧
    ({ s0 (some (ofInt 5)) "nop" with phase := .idle, seq := 1 }.loadProgram "mov A 7".toList 0).seq = 0 ∧
    ({ s0 (some (ofInt 5)) "nop" with phase := .idle, seq := 1 }.loadProgram "mov A 7".toList 0).cycleTime =
      some 10 := by decide +kernel

/-! ### Witnesses: the hypotheses of the statements can be met together -/

/-- What `Wf` asks, as a check. -/
def wfChecks (s : State) : Bool :=
  availOk s.params.avail && decide s.params.avail.Nodup && decide (s.x.map Prod.fst = s.params.avail)
    && s.x.all (fun e => e.2.all (fun r => decide (r.addressType = .direct)))
    && decide (s.cp.addressType = .direct) && s.currentTarget.all (fun t => decide (s.isReg t))
    && decide (s.pendingOpcode.isSome → s.pendingOperandOne.isSome ∧ s.pendingOperandTwo.isSome
      ∧ s.currentTarget.isSome)
    && s.cycleTime.all (fun t => decide (0 < t)) && Memory.wf s.mem
    && decide (s.seq ≤ s.mem.length) && decide (s.phase ≠ .idle → s.seq < s.mem.length)

theorem wf_of_wfChecks {s : State} (h : wfChecks s = true) : s.Wf := by
  simp only [wfChecks, Bool.and_eq_true, decide_eq_true_eq, List.all_eq_true,
    Option.all_eq_true] at h
  obtain ⟨⟨⟨⟨⟨⟨⟨⟨⟨⟨h1, h2⟩, h3⟩, h4⟩, h5⟩, h6⟩, h7⟩, h8⟩, h9⟩, h10⟩, h11⟩ := h
  exact ⟨h1, h2, h3, fun e he r hr => h4 e he r hr, h5, fun t ht => h6 t ht, h7,
    fun t ht => h8 t ht, h9, h10, h11⟩

/-- Everything but the bus message that `Inv` asks of a state in a fetch hold. -/
def fetchChecks (s : State) : Bool :=
  wfChecks s && s.cycleTime.isSome && decide (s.phase = .fetchHold s.seq) && s.busActive

theorem inv_of_fetchChecks {s : State} (h : fetchChecks s = true)
    (hm : s.busMessage = Config.msgFetch ((s.memRead s.seq).getD [])) : s.Inv := by
  simp only [fetchChecks, Bool.and_eq_true, decide_eq_true_eq] at h
  obtain ⟨⟨⟨h1, h2⟩, h3⟩, h4⟩ := h
  refine ⟨wf_of_wfChecks h1, fun _ => ?_⟩
  rw [State.PhaseOk, h3]
  exact ⟨h4, h2, rfl, hm⟩

/-- `add A 3` in S0 with `A = 10`. -/
def wAdd : State := s0 (some (ofInt 10)) "add A 3"

theorem wAdd_inv : wAdd.Inv := inv_of_fetchChecks (by decide +kernel) rfl

theorem wAdd_slot : wAdd.SlotInv :=
  .inr ⟨ofInt 4, by unfold State.SlotIs; decide +kernel, by decide +kernel⟩

/-- What `ValuesOk` asks, as a check, with 1 as the staged second operand. -/
def valueChecks (s : State) : Bool :=
  s.x.all (fun e => e.2.all (fun r => isNaN r.value == false)) && isNaN s.cp.value == false
    && s.pendingOperandOne.all (fun v => isNaN v == false)
    && decide (s.pendingOperandTwo = some (ofInt 1))
    && s.pendingResult.all (fun v => isNaN v == false)

theorem values_of_valueChecks {s : State} (h : valueChecks s = true) : s.ValuesOk := by
  simp only [valueChecks, Bool.and_eq_true, decide_eq_true_eq, List.all_eq_true,
    Option.all_eq_true, beq_iff_eq] at h
  obtain ⟨⟨⟨⟨h1, h2⟩, h3⟩, h4⟩, h5⟩ := h
  refine ⟨fun e he r hr => h1 e he r hr, h2, fun v hv => h3 v hv, fun v hv => ?_,
    fun v hv => h5 v hv⟩
  rw [h4] at hv
  exact ⟨1, by decide, by decide, (Option.mem_some_iff.1 hv).symm⟩

theorem wAdd_values : wAdd.ValuesOk := values_of_valueChecks (by decide +kernel)

theorem wAdd_steps : ∃ t, step wAdd = .next t :=
  (next_of_check (fun _ => true) (by decide +kernel)).imp fun _ h => h.1

theorem wAdd_exec (i : Instr) (h : (nextOf (exec i wAdd)).any (fun _ => true) = true) :
    ∃ t, exec i wAdd = .next t :=
  (next_of_check _ h).imp fun _ h => h.1

theorem test_witness_EncodedInstructionsDecodeBack :
    (Instr.mov "A".toList "5".toList).wf = true ∧
    Instr.mov "A".toList "5".toList ≠ .decodeSkip [] := by decide

theorem test_witness_DecodeFollowsOpcodeMap :
    (tokens "mov A".toList).length < 3 ∧
    tokens "mov A 7 9".toList = "mov".toList :: "A".toList :: "7".toList :: ["9".toList] ∧
    tokens "add A 7".toList = "add".toList :: "A".toList :: "7".toList :: [] ∧
    tokens "sub A 7".toList = "sub".toList :: "A".toList :: "7".toList :: [] ∧
    tokens "mul A 7".toList = "mul".toList :: "A".toList :: "7".toList :: [] ∧
    tokens "div A 7".toList = "div".toList :: "A".toList :: "7".toList :: [] ∧
    tokens "jmp 0 0".toList = "jmp".toList :: "0".toList :: "0".toList :: [] ∧
    "jmp".toList ∉ opcodeTokens := by decide

theorem none_of_any {p : Char → Bool} {l : Text} (h : l.any p = false) : ∀ c ∈ l, p c = false := by
  simpa using h

theorem test_witness_TokensAreMaximalRuns :
    [' ', '\t'] ≠ ([] : Text) ∧ (∀ c ∈ [' ', '\t'], isWS c = true) ∧
    isToken "mov".toList = true ∧ "mov".toList ∈ tokens "mov A".toList :=
  ⟨by decide, List.all_eq_true.1 (by decide), by decide, by decide⟩

theorem test_witness_CanonicalLinesSplitAtSpaces :
    "mov A 5".toList ≠ [] ∧ canonical "mov A 5".toList = true := by decide

theorem test_witness_LiteralClassesByGrammar :
    ("9007199254740992".toList ≠ [] ∧ (∀ c ∈ "9007199254740992".toList, isDigit c = true) ∧
      ['-'] ∈ [([] : Text), ['+'], ['-']]) ∧
    ((∀ c ∈ "five".toList, isDigit c = false) ∧ "five".toList ∉ infinitySpellings) ∧
    "-Infinity".toList ∈ infinitySpellings ∧
    (∃ c ∈ "5x".toList, isDigit c = true) :=
  ⟨⟨by decide, List.all_eq_true.1 (by decide), by decide⟩,
    ⟨none_of_any (by decide), by decide⟩, by decide, '5', by decide, by decide⟩

/-- The last hypothesis of the fourth clause, at `"5x"`. -/
theorem test_witness_LiteralClasses_ungrammatical :
    ∀ sign ∈ [([] : Text), ['+'], ['-']], ∀ ds : Text, "5x".toList = sign ++ ds →
      ∃ c ∈ ds, isDigit c = false := by
  intro sign hs ds h
  simp only [List.mem_cons, List.not_mem_nil, or_false] at hs
  rcases hs with rfl | rfl | rfl
  · rw [List.nil_append] at h
    exact h ▸ ⟨'x', by decide, by decide⟩
  · simp at h
  · simp at h

theorem test_witness_ProgramLinesSplitAtLF :
    (∀ c ∈ "mov A 5".toList, isLF c = false) ∧ (∀ c ∈ "\t ".toList, isWS c = true) :=
  ⟨none_of_any (by decide), List.all_eq_true.1 (by decide)⟩

theorem test_witness_LiteralsAreExact : (9007199254740992 : Int).natAbs ≤ litMax := by decide

theorem test_witness_WholeArithmeticIsExact :
    IsWhole (ofInt 7) 7 ∧ IsWhole (ofInt (-3)) (-3) ∧ (7 + (-3) : Int).natAbs ≤ 2 ^ 53 ∧
    (7 - (-3) : Int).natAbs ≤ 2 ^ 53 ∧ (7 * (-3) : Int).natAbs ≤ 2 ^ 53 := by
  unfold IsWhole; decide +kernel

theorem test_witness_AluRoundsToNearestEven :
    isFinite (ofInt 1) = true ∧ isFinite (ofInt 3) = true ∧ isZero (ofInt 3) = false ∧
    isFinite (alu .div (ofInt 1) (ofInt 3)) = true := by decide +kernel

/-- A tie: 2^53 and 2^53 + 2 are equally near to 2^53 + 1. -/
theorem test_witness_AluRoundsToNearestEven_tie :
    exactError .add (ofInt 9007199254740992) (ofInt 1) 0x4340000000000000#64 =
      exactError .add (ofInt 9007199254740992) (ofInt 1) 0x4340000000000001#64 := by
  decide +kernel

/-- Each operation overflows somewhere, and the least overflowing sum is half a unit in the last place
past the largest finite datum. -/
theorem test_witness_ResultsOverflowToInfinity :
    isFinite 0x7FEFFFFFFFFFFFFF#64 = true ∧ isFinite 0xFFEFFFFFFFFFFFFF#64 = true ∧
    isInf (alu .add 0x7FEFFFFFFFFFFFFF#64 0x7C90000000000000#64) = true ∧
    isInf (alu .add 0x7FEFFFFFFFFFFFFF#64 0x7C8FFFFFFFFFFFFF#64) = false ∧
    isInf (alu .sub 0xFFEFFFFFFFFFFFFF#64 0x7FEFFFFFFFFFFFFF#64) = true ∧
    isInf (alu .mul 0x7FEFFFFFFFFFFFFF#64 0x7FEFFFFFFFFFFFFF#64) = true ∧
    isZero 0x0000000000000001#64 = false ∧
    isInf (alu .div 0x7FEFFFFFFFFFFFFF#64 0x0000000000000001#64) = true := by decide +kernel

theorem test_witness_SignsOfResults :
    isNaN (alu .mul (ofInt 2) (ofInt (-3))) = false ∧
    isNaN (alu .div (ofInt 2) (ofInt (-3))) = false ∧ isFinite (ofInt 2) = true := by
  decide +kernel

theorem test_witness_InfinitiesAndNaN :
    isNaN 0x7FF8000000000000#64 = true ∧ isInf 0x7FF0000000000000#64 = true ∧
    isFinite (ofInt 1) = true ∧ isZero (ofInt 1) = false ∧ isZero 0#64 = true ∧
    isFinite 0#64 = true ∧
    signOf 0x7FF0000000000000#64 = signOf 0x7FF0000000000000#64 ∧
    isInf 0xFFF0000000000000#64 = true ∧
    signOf 0x7FF0000000000000#64 ≠ signOf 0xFFF0000000000000#64 := by decide +kernel

theorem test_witness_DivisionByLiteralStaysFinite :
    isFinite (ofInt 7) = true ∧ IsLiteral (ofInt 2) :=
  ⟨by decide +kernel, 2, by decide, by decide, rfl⟩

theorem test_witness_MovRule :
    nameA ∈ wAdd.params.avail ∧ classify "5".toList = .lit 5 ∧ classify "1.5".toList = .unsettled ∧
    classify "0".toList = .zero ∧ classify "x".toList = .nonNumeric ∧
    "X".toList ∉ wAdd.params.avail := by decide +kernel

theorem test_witness_MovDestinationReadsLiteral :
    wAdd.Wf ∧ nameA ∈ wAdd.params.avail ∧ classify "5".toList = .lit 5 :=
  ⟨wAdd_inv.1, by decide +kernel, by decide⟩

theorem test_witness_MovOutsideAvailIsDropped :
    wAdd.Wf ∧ cpName ∉ wAdd.params.avail ∧ "X".toList ∉ wAdd.params.avail :=
  ⟨wAdd_inv.1, by decide +kernel, by decide +kernel⟩

theorem test_witness_RejectedOperandsAreIgnored :
    wAdd.Rejects nameA "0".toList ∧ wAdd.Rejects nameA "x".toList ∧
    wAdd.Rejects "X".toList "1.5".toList ∧ ¬ wAdd.isReg "X".toList ∧
    ∃ t, exec (aluInstr .mul nameA "0".toList) wAdd = .next t :=
  ⟨.inr (.inl (by decide)), .inr (.inr (by decide)), .inl (by decide +kernel), by decide +kernel,
    wAdd_exec _ (by decide +kernel)⟩

/-- The last clause of `SubRule`, at its greatest value. -/
theorem test_witness_SubRule :
    IsWhole (ofInt 9007199254740991) 9007199254740991 ∧
    (9007199254740991 : Int).natAbs < 2 ^ 53 := by
  unfold IsWhole; decide +kernel

/-- The states of the engine clauses of the two rows without an action. -/
theorem test_witness_DecodeSkipOnlyIncrements :
    (s0 none "nop").Inv ∧ (s0 none "nop").Live ∧ (s0 none "nop").phase = .fetchHold 0 ∧
    (s0 none "nop").memRead 0 = some "nop".toList ∧ (tokens "nop".toList).length < 3 ∧
    (s0 none "nop").params.tokenizeStrict = false :=
  ⟨inv_of_fetchChecks (by decide +kernel) rfl, by decide +kernel, by decide +kernel,
    by decide +kernel, by decide, by decide +kernel⟩

theorem test_witness_UnknownOpcodeOnlyIncrements :
    (s0 none "jmp 0 1.5").Inv ∧ (s0 none "jmp 0 1.5").Live ∧
    (s0 none "jmp 0 1.5").phase = .fetchHold 0 ∧
    (s0 none "jmp 0 1.5").memRead 0 = some "jmp 0 1.5".toList ∧
    tokens "jmp 0 1.5".toList = "jmp".toList :: "0".toList :: "1.5".toList :: [] ∧
    "jmp".toList ∉ opcodeTokens ∧ (s0 none "jmp 0 1.5").params.tokenizeStrict = false :=
  ⟨inv_of_fetchChecks (by decide +kernel) rfl, by decide +kernel, by decide +kernel,
    by decide +kernel, by decide, by decide, by decide +kernel⟩

/-- Each clause of `AluRule`, which the four ALU statements share. -/
theorem test_witness_AluRule :
    wAdd.Live ∧
    (wAdd.isReg nameA ∧ classify "3".toList = .lit 3 ∧ wAdd.readOperand nameA = some (ofInt 10)) ∧
    (wAdd.isReg "B".toList ∧ wAdd.readOperand "B".toList = none) ∧
    classify "1.5".toList = .unsettled ∧
    (classify "0".toList = .zero ∧ wAdd.pendingOpcode = some .add ∧
      wAdd.pendingOperandOne = some (ofInt 4) ∧ wAdd.pendingOperandTwo = some (ofInt 1) ∧
      wAdd.currentTarget = some cpName) ∧
    ((first "add A 0").Live ∧ (first "add A 0").pendingOpcode = none ∧
      ¬ (first "add A 0").isReg "X".toList) := by decide +kernel

theorem test_witness_IncrementAddsOneToControlPointer :
    wAdd.Live ∧ wAdd.cell < wAdd.mem.length := by decide +kernel

theorem test_witness_MeaningsFrame :
    (∃ t, exec (.mov nameA "5".toList) wAdd = .next t) ∧
    (∃ t, exec (.add nameA "3".toList) wAdd = .next t) ∧
    (∀ b, Instr.mov "B".toList "1".toList ≠ .mov nameA b) ∧
    (∀ op a b, Instr.decodeSkip [] ≠ aluInstr op a b) := by
  refine ⟨wAdd_exec _ (by decide +kernel), wAdd_exec _ (by decide +kernel), fun b h => ?_, fun op a b => by cases op <;> simp [aluInstr]⟩
  exact absurd (Instr.mov.inj h).1 (by decide)

/-- Steps that write: `A` and `IR` in a fetch hold, `CP` in a compute hold. -/
theorem test_witness_RegisterWriters :
    wAdd.Wf ∧
    (∃ t, step (s0 none "mov A 5") = .next t ∧
      decide (t.readReg nameA ≠ (s0 none "mov A 5").readReg nameA ∧
        t.ir ≠ (s0 none "mov A 5").ir) = true) ∧
    (∃ t, step { wAdd with phase := .computeHold 0 .main, pendingResult := some (ofInt 9) } = .next t ∧
      decide (t.cp ≠ wAdd.cp) = true) :=
  ⟨wAdd_inv.1, next_of_check _ (by decide +kernel), next_of_check _ (by decide +kernel)⟩

/-- The rejected line of V-STALE-1. -/
def wStale : State := s0 (some (ofInt 10)) "add A 0"

theorem test_witness_StaleWritebackChangesNothing :
    wStale.Inv ∧ wStale.SlotInv ∧ wStale.Live ∧ wStale.phase = .fetchHold 0 ∧
    wStale.memRead 0 = some "add A 0".toList ∧
    decode wStale.params.tokenizeStrict "add A 0".toList = .ok (aluInstr .add nameA "0".toList) ∧
    wStale.Rejects nameA "0".toList ∧ wStale.pendingOpcode ≠ none :=
  ⟨inv_of_fetchChecks (by decide +kernel) rfl,
    .inr ⟨ofInt 4, by unfold State.SlotIs; decide +kernel, by decide +kernel⟩,
    by decide +kernel, by decide +kernel, by decide +kernel, by decide +kernel,
    .inr (.inl (by decide)), by decide +kernel⟩

/-- V-ADD-10. -/
def wCP : State := s0 none "add CP 10"

theorem test_witness_AluOnControlPointer :
    wCP.Inv ∧ wCP.Live ∧ wCP.phase = .fetchHold 0 ∧ wCP.memRead 0 = some "add CP 10".toList ∧
    decode wCP.params.tokenizeStrict "add CP 10".toList =
      .ok (aluInstr .add cpName "10".toList) ∧ classify "10".toList = .lit 10 :=
  ⟨inv_of_fetchChecks (by decide +kernel) rfl, by decide +kernel, by decide +kernel,
    by decide +kernel, by decide +kernel, by decide⟩

theorem test_witness_FetchStepRunsDecodedInstruction :
    wAdd.Live ∧ wAdd.phase = .fetchHold 0 ∧ wAdd.memRead 0 = some "add A 3".toList ∧
    decode wAdd.params.tokenizeStrict "add A 3".toList = .ok (.add nameA "3".toList) := by
  decide +kernel

/-- V-TOK-2 under strict tokenizing. -/
def wStrict : State := (State.create [nameA] true false).loadProgram "  mov\tA   5 ".toList 10

theorem test_witness_StrictTokenizingRefuses :
    wStrict.Live ∧ wStrict.phase = .fetchHold 0 ∧ wStrict.memRead 0 = some "  mov\tA   5 ".toList ∧
    wStrict.params.tokenizeStrict = true ∧ canonical "  mov\tA   5 ".toList = false := by
  decide +kernel

theorem test_witness_IdleKeepsAllState : State.reset.Live ∧ State.reset.phase = .idle := by decide

theorem test_witness_MarkedStatesAreFrozen :
    (wAdd.raiseFault .uninitializedRead).fault = some .uninitializedRead ∧
    (wAdd.refuse .unsettledLiteral).refused = some .unsettledLiteral ∧
    (wAdd.refuse .unsettledLiteral).fault = none := by decide +kernel

theorem test_witness_MemoryOnlyReplacedByLoads :
    (∃ t, step wAdd = .next t) ∧ State.reset.Live ∧ State.reset.phase = .idle :=
  ⟨wAdd_steps, by decide, rfl⟩

theorem test_witness_ConfigurationIsReadOnly : ∃ t, step wAdd = .next t := wAdd_steps

/-- The compute hold of `IncrementCP` in cell 0, a skip, of a first run of `p`. -/
def incHold (p : String) : State :=
  { first p with
    cp := ⟨.direct, 0#64⟩
    ir := some ⟨.direct, "nop".toList⟩
    busMessage := Config.msgCompute cpName
    currentTarget := some cpName
    pendingOpcode := some .add
    pendingOperandOne := some 0#64
    pendingOperandTwo := some (ofInt 1)
    pendingResult := some (alu .add 0#64 (ofInt 1))
    phase := .computeHold 0 .inc }

theorem incHold_inv {p : String} (h : wfChecks (incHold p) = true)
    (hc : (incHold p).cycleTime.isSome = true) (hb : (incHold p).busActive = true)
    (hs : 0 = (incHold p).seq) : (incHold p).Inv :=
  ⟨wf_of_wfChecks h, fun _ => ⟨hb, hc, hs,
    ⟨.add, 0#64, ofInt 1, cpName, ⟨rfl, rfl, rfl, rfl, rfl⟩, rfl⟩,
    fun _ => ⟨rfl, rfl, rfl, rfl, rfl⟩⟩⟩

/-- In the last cell, and before one more cell. -/
def wLast : State := incHold "nop"

def wMid : State := incHold "nop\nnop"

theorem wLast_inv : wLast.Inv :=
  incHold_inv (by decide +kernel) (by decide +kernel) (by decide +kernel) (by decide +kernel)

theorem wMid_inv : wMid.Inv :=
  incHold_inv (by decide +kernel) (by decide +kernel) (by decide +kernel) (by decide +kernel)

theorem test_witness_LastCellEndsTheRun :
    wLast.Inv ∧ wLast.Live ∧ wLast.phase = .computeHold 0 .inc ∧ 0 + 1 = wLast.mem.length :=
  ⟨wLast_inv, by decide +kernel, by decide +kernel, by decide +kernel⟩

/-- The sequencer index moves on, past the last cell and to a next one. -/
theorem test_witness_NoControlTransfer :
    (∃ t, exec (.add nameA "3".toList) wAdd = .next t) ∧
    (wLast.Inv ∧ wLast.phase = .computeHold 0 .inc ∧
      ∃ t, step wLast = .next t ∧ decide (t.seq ≠ wLast.seq ∧ t.phase = .idle) = true) ∧
    (wMid.Inv ∧ wMid.phase = .computeHold 0 .inc ∧
      ∃ t, step wMid = .next t ∧ decide (t.Live ∧ t.phase = .fetchHold 1) = true) :=
  ⟨wAdd_exec _ (by decide +kernel),
    ⟨wLast_inv, by decide +kernel, next_of_check _ (by decide +kernel)⟩,
    ⟨wMid_inv, by decide +kernel, next_of_check _ (by decide +kernel)⟩⟩

theorem test_witness_IncrementAddsOne_moves :
    wLast.Inv ∧ ∃ t, step wLast = .next t ∧ decide (t.seq ≠ wLast.seq) = true :=
  ⟨wLast_inv, next_of_check _ (by decide +kernel)⟩

theorem test_witness_BusMessagesNameAndClear :
    wAdd.Inv ∧ (∃ t, step wAdd = .next t ∧ decide (t.Live ∧ t.phase ≠ .idle) = true) ∧
    wAdd.phase ≠ .idle ∧ (∃ t, step wLast = .next t ∧ decide (t.phase = .idle) = true) :=
  ⟨wAdd_inv, next_of_check _ (by decide +kernel), by decide +kernel,
    next_of_check _ (by decide +kernel)⟩

theorem test_witness_CreationConfiguresRegisters :
    (∀ n ∈ testAvail, isToken n = true ∧ n ≠ cpName) ∧
    (∃ n ∈ ["CP".toList, "A".toList], isToken n = false ∨ n = cpName) ∧
    (∃ n ∈ ["a b".toList], isToken n = false ∨ n = cpName) := by decide

theorem test_witness_InvalidLoadOnlyClears :
    State.reset.Live ∧ State.reset.phase = .idle ∧ ("mov A 5".toList = [] ∨ 0 = 0) ∧
    State.reset.params.clearOnLoad = false ∧ "\n\n".toList ≠ [] ∧ 10 ≠ 0 ∧ (∀ c ∈ "\n\n".toList, isLF c = true) ∧
    (∀ c ∈ "\n ".toList, isLF c = true ∨ isWS c = true) :=
  ⟨by decide, rfl, .inr rfl, rfl, by decide, by decide, List.all_eq_true.1 (by decide), fun c h => by
    simpa using List.all_eq_true.1 (show "\n ".toList.all (fun c => isLF c || isWS c) from by decide) c h⟩

theorem test_witness_ValidLoadStartsCellZero :
    State.reset.Live ∧ State.reset.phase = .idle ∧ "mov A 5".toList ≠ [] ∧ 10 ≠ 0 ∧
    State.reset.params.clearOnLoad = false ∧
    programLines "mov A 5".toList = "mov A 5".toList :: [] ∧ programLines "\n".toList = [] := by
  decide

theorem test_witness_ClearOnLoadResetsRegisters :
    (State.create [nameA] false true).Live ∧ (State.create [nameA] false true).phase = .idle ∧
    (State.create [nameA] false true).params.clearOnLoad = true := by decide +kernel

theorem test_witness_ReloadDuringRunIsRefused : wAdd.Live ∧ wAdd.phase ≠ .idle := by
  decide +kernel

theorem test_witness_LoadBuildsImageInSourceOrder :
    State.reset.Live ∧ State.reset.phase = .idle ∧ "mov A 5\nadd A 2\n".toList ≠ [] ∧ 10 ≠ 0 := by
  decide

theorem test_witness_StepKeepsInvariant : wAdd.Inv ∧ ∃ t, step wAdd = .next t :=
  ⟨wAdd_inv, wAdd_steps⟩

theorem test_witness_LoadKeepsInvariants : wAdd.Inv ∧ wAdd.ValuesOk ∧ wAdd.SlotInv :=
  ⟨wAdd_inv, wAdd_values, wAdd_slot⟩

theorem test_witness_StepKeepsValueBounds :
    wAdd.Inv ∧ wAdd.ValuesOk ∧ ∃ t, step wAdd = .next t := ⟨wAdd_inv, wAdd_values, wAdd_steps⟩

theorem test_witness_StepKeepsSlotInvariant :
    wAdd.Inv ∧ wAdd.SlotInv ∧ ∃ t, step wAdd = .next t := ⟨wAdd_inv, wAdd_slot, wAdd_steps⟩

theorem test_witness_ReachableStatesMeetInvariants : Reachable (first "nop") :=
  .load (.create _ _ _) _ _

theorem test_witness_SequencerIndexStaysInMemory :
    Reachable (first "nop") ∧ State.reset.Live ∧ State.reset.phase = .idle ∧
    (([] : Text) = [] ∨ 5 = 0) :=
  ⟨test_witness_ReachableStatesMeetInvariants, by decide, rfl, .inl rfl⟩

theorem test_witness_UnmarkedStatesAlwaysStep : wAdd.Inv ∧ wAdd.Live :=
  ⟨wAdd_inv, by decide +kernel⟩

/-- Each kind of cell of `CellCycleCounts`: the common hypotheses hold in S0 with each line. -/
theorem test_witness_CellCycleCounts :
    (wAdd.Inv ∧ wAdd.Live ∧ wAdd.phase = .fetchHold 0 ∧ wAdd.memRead 0 = some "add A 3".toList) ∧
    (decode false "nop".toList = .ok (.decodeSkip ["nop".toList])) ∧
    (decode false "jmp 0 0".toList = .ok (.unknownOpcode "jmp".toList "0".toList "0".toList)) ∧
    (decode false "mov A 5".toList = .ok (.mov nameA "5".toList) ∧
      ¬ (nameA ∈ wAdd.params.avail ∧ classify "5".toList = .unsettled)) ∧
    (decode false "add A 3".toList = .ok (aluInstr .add nameA "3".toList) ∧
      wAdd.Accepts nameA "3".toList ∧ wAdd.readOperand nameA ≠ none) ∧
    (decode false "sub A 0".toList = .ok (aluInstr .sub nameA "0".toList) ∧
      wAdd.Rejects nameA "0".toList ∧ wAdd.pendingOpcode ≠ none) :=
  ⟨⟨wAdd_inv, by decide +kernel, by decide +kernel, by decide +kernel⟩, by decide, by decide,
    ⟨by decide, by decide +kernel⟩,
    ⟨by decide, ⟨by decide +kernel, 3, by decide⟩, by decide +kernel⟩,
    ⟨by decide, .inr (.inl (by decide)), by decide +kernel⟩⟩

theorem test_witness_StepsRefineExecuteCell :
    wAdd.Inv ∧ wAdd.Live ∧ wAdd.phase = .fetchHold 0 :=
  ⟨wAdd_inv, by decide +kernel, by decide +kernel⟩

theorem test_witness_RunsEndAsTheProcedureSays :
    wStale.Inv ∧ wStale.Live ∧ wStale.phase = .fetchHold 0 :=
  ⟨inv_of_fetchChecks (by decide +kernel) rfl, by decide +kernel, by decide +kernel⟩

/-- One cell, a skip, from `CP = 5`; the run's end itself is what the statement is about. -/
def wCount : State := s0 none "nop"

theorem test_witness_ControlPointerCountsCells :
    wCount.Inv ∧ wCount.SlotInv ∧ wCount.Live ∧ wCount.phase = .fetchHold 0 ∧
    IsWhole wCount.cp.value 5 ∧ -(2 ^ 53) < (5 : Int) ∧
    (5 : Int) + (wCount.mem.length - (0 : Nat) : Int) < 2 ^ 53 ∧
    (∀ j l, 0 ≤ j → wCount.memRead j = some l → leavesCP wCount.params.tokenizeStrict l) ∧
    (∃ t, steps 3 wCount = .next t ∧ decide (t.Live ∧ t.phase = .idle) = true) := by
  refine ⟨inv_of_fetchChecks (by decide +kernel) rfl,
    .inr ⟨ofInt 4, by unfold State.SlotIs; decide +kernel, by decide +kernel⟩,
    by decide +kernel, by decide +kernel, ⟨by decide +kernel, by decide +kernel⟩, by decide,
    by decide +kernel, ?_, next_of_check _ (by decide +kernel)⟩
  intro j l _ hl op b v hd
  match j with
  | 0 =>
    have : l = "nop".toList := (Option.some.inj hl).symm
    subst this
    have hn : decode wCount.params.tokenizeStrict "nop".toList = .ok (.decodeSkip ["nop".toList]) := by
      decide +kernel
    rw [hn] at hd
    cases op <;> cases hd
  | j + 1 =>
    have hm : wCount.mem = [MemCell.ofLine "nop".toList] := by decide +kernel
    simp [State.memRead, hm] at hl

end Sys2Proof.Tests
end

section
/-! PROOFS. Rounding changes nothing that needs no rounding: a whole number of units whose
significand fits in 53 bits comes back with its own magnitude. Integers up to 2^53 are such numbers,
so `toNum` is exact on them. -/

namespace Sys2Proof.Machine

/-! ### The magnitude that packed bits stand for -/

theorem magnitude_pack (neg : Bool) {m : Nat} (h : m ≤ infMag) :
    magnitude (pack neg m) =
      if m / 2 ^ 52 = 0 then m % 2 ^ 52 else (2 ^ 52 + m % 2 ^ 52) * 2 ^ (m / 2 ^ 52 - 1) := by
  rw [magnitude, expOf_pack neg h, fracOf_pack neg h]

/-- The bits `k * 2^52 + s` stand for `s` units of `2^k`, also where `s` has carried to 2^53; only
subnormals, with `k = 0`, have a significand below 2^52. -/
theorem magnitude_pack_significand (neg : Bool) {k s : Nat} (hs : s ≤ 2 ^ 53)
    (hnormal : k = 0 ∨ 2 ^ 52 ≤ s) (hfit : k * 2 ^ 52 + s ≤ infMag) :
    magnitude (pack neg (k * 2 ^ 52 + s)) = s * 2 ^ k := by
  rw [magnitude_pack neg hfit]
  by_cases hsub : s < 2 ^ 52
  · obtain rfl : k = 0 := by omega
    rw [Nat.zero_mul, Nat.zero_add, Nat.div_eq_of_lt hsub, Nat.mod_eq_of_lt hsub, if_pos rfl,
      pow_zero, Nat.mul_one]
  · rcases Nat.lt_or_eq_of_le hs with hlt | rfl
    · have hexp : (k * 2 ^ 52 + s) / 2 ^ 52 = k + 1 := by omega
      have hfrac : 2 ^ 52 + (k * 2 ^ 52 + s) % 2 ^ 52 = s := by omega
      rw [hexp, hfrac, if_neg (Nat.succ_ne_zero k), Nat.add_sub_cancel]
    · have hexp : (k * 2 ^ 52 + 2 ^ 53) / 2 ^ 52 = k + 2 := by omega
      have hfrac : (k * 2 ^ 52 + 2 ^ 53) % 2 ^ 52 = 0 := by omega
      rw [hexp, hfrac, if_neg (by omega), show k + 2 - 1 = k + 1 from rfl]
      ring

theorem scaled_pack (neg : Bool) {m : Nat} (h : m ≤ infMag) :
    scaled (pack neg m) =
      if neg then -(magnitude (pack neg m) : Int) else magnitude (pack neg m) := by
  rw [scaled, signOf_pack neg h]

/-! ### The unit in the last place -/

theorem lt_two_pow_ulpExp (n : Nat) : n < 2 ^ 53 * 2 ^ ulpExp n := by
  rw [← pow_add]
  exact Nat.lt_log2_self.trans_le (Nat.pow_le_pow_right (by decide) (by unfold ulpExp; omega))

theorem ulpExp_eq_zero_or_normal (n : Nat) : ulpExp n = 0 ∨ 2 ^ 52 * 2 ^ ulpExp n ≤ n := by
  rcases Nat.eq_zero_or_pos (ulpExp n) with h0 | hpos
  · exact .inl h0
  · have hexp : 52 + ulpExp n = n.log2 := by unfold ulpExp at *; omega
    have hn : n ≠ 0 := by rintro rfl; simp [ulpExp] at hpos
    exact .inr (by rw [← pow_add, hexp]; exact Nat.log2_self_le hn)

theorem ulpExp_le_of_lt {n k : Nat} (h : n < 2 ^ (k + 53)) : ulpExp n ≤ k := by
  rcases Nat.eq_zero_or_pos n with rfl | hpos
  · simp [ulpExp]
  · have := (Nat.log2_lt hpos.ne').2 h
    unfold ulpExp
    omega

/-! ### Rounding what is exact already -/

theorem roundHalfEven_mul_self (s : Nat) {den : Nat} (hden : 0 < den) :
    roundHalfEven (s * den) den = s := by
  simp [roundHalfEven, Nat.mul_div_cancel s hden, hden.ne]

/-- R98: a whole number of units that is a multiple of its own unit in the last place, and
below 2^1024, is packed without rounding; `2^2098` units of 2^-1074 are 2^1024. -/
theorem pack_roundMag_exact (neg : Bool) {n den : Nat} (hden : 0 < den)
    (hdvd : 2 ^ ulpExp n ∣ n) (hn : n < 2 ^ (2045 + 53)) :
    isFinite (pack neg (roundMag (n * den) den)) = true ∧
      magnitude (pack neg (roundMag (n * den) den)) = n := by
  obtain ⟨s, hs⟩ := hdvd
  have hunit : 0 < 2 ^ ulpExp n := Nat.two_pow_pos _
  have hs53 : s < 2 ^ 53 := by
    refine Nat.lt_of_mul_lt_mul_left (a := 2 ^ ulpExp n) ?_
    rw [← hs, Nat.mul_comm]
    exact lt_two_pow_ulpExp n
  have hnormal : ulpExp n = 0 ∨ 2 ^ 52 ≤ s := by
    refine (ulpExp_eq_zero_or_normal n).imp_right fun h => ?_
    refine Nat.le_of_mul_le_mul_left ?_ hunit
    rwa [← hs, Nat.mul_comm]
  have hfit : ulpExp n * 2 ^ 52 + s < infMag := by
    have hk := ulpExp_le_of_lt hn
    have hinf : infMag = 2047 * 2 ^ 52 := rfl
    omega
  have hround : roundMag (n * den) den = ulpExp n * 2 ^ 52 + s := by
    have hnum : n * den = s * (den * 2 ^ ulpExp n) := by
      conv_lhs => rw [hs]
      ring
    rw [roundMag, Nat.mul_div_cancel n hden, hnum,
      roundHalfEven_mul_self s (Nat.mul_pos hden hunit)]
    exact Nat.min_eq_left hfit.le
  rw [hround]
  refine ⟨(isFinite_pack neg hfit.le).2 hfit, ?_⟩
  rw [magnitude_pack_significand neg hs53.le hnormal hfit.le, Nat.mul_comm, ← hs]

/-! ### Integers up to 2^53 -/

/-- Below 2^53 the unit in the last place is at most 1; 2^53 itself is a power of two. Here 1 is
`2^e` units. -/
theorem two_pow_ulpExp_dvd {v : Nat} (h : v ≤ 2 ^ 53) (e : Nat) :
    2 ^ ulpExp (v * 2 ^ e) ∣ v * 2 ^ e := by
  rcases Nat.lt_or_eq_of_le h with hlt | rfl
  · have hk : ulpExp (v * 2 ^ e) ≤ e := ulpExp_le_of_lt <| by
      rw [Nat.add_comm, pow_add]
      exact Nat.mul_lt_mul_of_pos_right hlt (Nat.two_pow_pos _)
    exact Dvd.dvd.mul_left (pow_dvd_pow 2 hk) v
  · rw [← pow_add]
    refine pow_dvd_pow 2 ?_
    rw [ulpExp, Nat.log2_two_pow]
    exact Nat.sub_le _ _

theorem mul_two_pow_lt {v e k : Nat} (h : v ≤ 2 ^ 53) (hk : 53 + e < k) : v * 2 ^ e < 2 ^ k :=
  calc v * 2 ^ e ≤ 2 ^ 53 * 2 ^ e := Nat.mul_le_mul_right _ h
    _ = 2 ^ (53 + e) := (pow_add 2 53 e).symm
    _ < 2 ^ k := Nat.pow_lt_pow_right (by decide) hk

/-- A magnitude with its sign is the number itself; a zero may have either sign. -/
theorem signed_natAbs {neg : Bool} {v : Int} (hneg : v ≠ 0 → neg = decide (v < 0)) (u : Int) :
    (if neg then -((v.natAbs : Int) * u) else (v.natAbs : Int) * u) = v * u := by
  rcases lt_trichotomy v 0 with hlt | rfl | hgt
  · rw [hneg hlt.ne, decide_eq_true hlt, if_pos rfl, Int.ofNat_natAbs_of_nonpos hlt.le]
    ring
  · simp
  · rw [hneg hgt.ne', decide_eq_false hgt.le.not_gt, if_neg Bool.false_ne_true,
      Int.natAbs_of_nonneg hgt.le]

/-- An integer of magnitude at most 2^53, given as a fraction of units with its sign (a zero may
have either), is packed as itself. -/
theorem isWhole_pack_roundMag {neg : Bool} {v : Int} {den : Nat} (hden : 0 < den)
    (hv : v.natAbs ≤ 2 ^ 53) (hneg : v ≠ 0 → neg = decide (v < 0)) :
    IsWhole (pack neg (roundMag (v.natAbs * oneUnits * den) den)) v := by
  obtain ⟨hfin, hmag⟩ :=
    pack_roundMag_exact neg hden (two_pow_ulpExp_dvd hv 1074) (mul_two_pow_lt hv (by decide))
  refine ⟨hfin, ?_⟩
  rw [scaled_pack neg (roundMag_le_infMag _ _), oneUnits, hmag, Nat.cast_mul]
  exact signed_natAbs hneg _

end Sys2Proof.Machine

namespace Sys2Proof.Proofs

open Sys2Proof.Machine

/-- Settles O8: an integer of magnitude at most 2^53 is exact in units, over the denominator 1. -/
theorem literalsAreExact : Obligations.LiteralsAreExact := by
  intro v hv
  rw [ofInt_eq, ← Nat.mul_one (v.natAbs * oneUnits)]
  exact isWhole_pack_roundMag Nat.one_pos hv fun _ => rfl

end Sys2Proof.Proofs
end

section
/-! PROOFS. The state invariant (R30), operation by operation: each named operation on the state keeps
well-formedness, the starts of the holds make the phase agree with bus, slot and sequencer, and so
every step keeps the invariant. -/

namespace Sys2Proof.Machine

/-! ### Well-formedness and the named operations -/

section wf

variable {s : State}

theorem State.Wf.busRelease (h : s.Wf) : s.busRelease.Wf := { h with }

theorem State.Wf.fetched (h : s.Wf) (l : Text) : (s.fetched l).Wf := { h with }

theorem State.Wf.raiseFault (h : s.Wf) (k : FaultKind) : (s.raiseFault k).Wf := { h with }

theorem State.Wf.refuse (h : s.Wf) (k : RefusalKind) : (s.refuse k).Wf := { h with }

theorem State.Wf.stage (h : s.Wf) (op : AluOp) (x y : Num64) {a : RegName} (ha : s.isReg a) :
    (s.stage op x y a).Wf :=
  { h with
    targetReg := fun _ ht => Option.some.inj ht ▸ ha
    slotWhole := fun _ => ⟨rfl, rfl, rfl⟩ }

theorem State.Wf.writeReg (h : s.Wf) (n : RegName) (v : Num64) : (s.writeReg n v).Wf :=
  { h with
    regNames := (s.writeReg_names n v).trans h.regNames
    regsDirect := State.writeReg_forall h.regsDirect rfl }

theorem State.Wf.writeTarget (h : s.Wf) (n : RegName) (r : Num64) : (s.writeTarget n r).Wf := by
  by_cases hn : n = cpName
  · subst hn
    rw [State.writeTarget_cp_name]
    exact { h with cpDirect := rfl }
  · rw [State.writeTarget_of_ne hn]
    exact h.writeReg n r

theorem State.Wf.atResolve (h : s.Wf) (hp : s.phase ≠ .idle) (w : Which) (op : AluOp) (a : RegName)
    (b : Token) (v : Int) : (s.atResolve w op a b v).Wf :=
  { h with seqLt := fun _ => h.seqLt hp }

theorem State.Wf.atCompute (h : s.Wf) (hp : s.phase ≠ .idle) (w : Which) (op : AluOp) (x y : Num64)
    (t : RegName) : (s.atCompute w op x y t).Wf :=
  { h with seqLt := fun _ => h.seqLt hp }

/-- R80, R81: a start at a cell, or one past the last, keeps `seq` within memory. -/
theorem State.Wf.startCell (h : s.Wf) {i : Nat} (hi : i ≤ s.mem.length) : (s.startCell i).Wf := by
  cases hl : s.memRead i with
  | none =>
    rw [State.startCell_past s i hl]
    exact { h with seqLe := hi, seqLt := fun hp => absurd rfl hp }
  | some l =>
    rw [State.startCell_fetch s i hl]
    exact { h with seqLe := hi, seqLt := fun _ => (s.memRead_some_iff i).1 ⟨l, hl⟩ }

end wf

/-! ### Inside a cell -/

/-- R25: the engine works on the cell that `seq` names, under a cycle time. -/
structure State.InCell (s : State) : Prop where
  running : s.phase ≠ .idle
  clock : s.cycleTime.isSome
  cellEq : s.cell = s.seq

theorem State.PhaseOk.inCell {s : State} (h : s.PhaseOk) (hp : s.phase ≠ .idle) : s.InCell := by
  unfold State.PhaseOk at h
  cases hphase : s.phase <;> rw [hphase] at h
  case idle => exact absurd hphase hp
  all_goals
    obtain ⟨-, hclock, hi, -⟩ := h
    exact ⟨hp, hclock, by simp [State.cell, hphase, Phase.cellIndex, hi]⟩

section inCell

variable {s : State}

theorem State.InCell.of_eq {t : State} (h : s.InCell) (hp : t.phase = s.phase)
    (hc : t.cycleTime = s.cycleTime) (hs : t.seq = s.seq) : t.InCell where
  running := hp ▸ h.running
  clock := hc ▸ h.clock
  cellEq := by rw [State.cell, hp, hs]; exact h.cellEq

theorem State.InCell.busRelease (h : s.InCell) : s.busRelease.InCell := h.of_eq rfl rfl rfl

theorem State.InCell.fetched (h : s.InCell) (l : Text) : (s.fetched l).InCell := h.of_eq rfl rfl rfl

theorem State.InCell.stage (h : s.InCell) (op : AluOp) (x y : Num64) (a : RegName) :
    (s.stage op x y a).InCell := h.of_eq rfl rfl rfl

theorem State.InCell.writeReg (h : s.InCell) (n : RegName) (v : Num64) : (s.writeReg n v).InCell :=
  h.of_eq rfl rfl rfl

theorem State.InCell.writeTarget (h : s.InCell) (n : RegName) (r : Num64) :
    (s.writeTarget n r).InCell :=
  h.of_eq (s.writeTarget_phase n r) (s.writeTarget_cycleTime n r) (s.writeTarget_seq n r)

end inCell

/-! ### The invariant at each place a step can end -/

section inv

variable {s : State}

/-- R112: in a marked state the invariant is well-formedness alone. -/
theorem State.Wf.inv_of_not_live (h : s.Wf) (hm : ¬ s.Live) : s.Inv := ⟨h, fun hl => absurd hl hm⟩

theorem State.Wf.raiseFault_inv (h : s.Wf) (k : FaultKind) : (s.raiseFault k).Inv :=
  (h.raiseFault k).inv_of_not_live (s.raiseFault_not_live k)

theorem State.Wf.refuse_inv (h : s.Wf) (k : RefusalKind) : (s.refuse k).Inv :=
  (h.refuse k).inv_of_not_live (s.refuse_not_live k)

theorem isLiteral_of_classify {b : Token} {v : Int} (h : classify b = .lit v) :
    IsLiteral (ofInt v) :=
  ⟨v, (classify_lit h).1, (classify_lit h).2, rfl⟩

theorem State.InCell.atResolve_main_inv (hc : s.InCell) (h : s.Wf) (op : AluOp) {a : RegName}
    {b : Token} {v : Int} (ha : s.isReg a) (hb : classify b = .lit v) :
    (s.atResolve .main op a b v).Inv :=
  ⟨h.atResolve hc.running .main op a b v, fun _ =>
    ⟨rfl, hc.clock, hc.cellEq, ha, isLiteral_of_classify hb, nofun⟩⟩

/-- R77: `IncrementCP` at its resolve hold. -/
theorem State.InCell.atIncrement_inv (hc : s.InCell) (h : s.Wf) :
    (s.atResolve .inc .add cpName oneToken 1).Inv :=
  ⟨h.atResolve hc.running .inc .add cpName oneToken 1, fun _ =>
    ⟨rfl, hc.clock, hc.cellEq, isReg_cpName s, isLiteral_of_classify classify_oneToken,
      fun _ => ⟨rfl, rfl, rfl⟩⟩⟩

/-- R95: a compute hold shows the slot it computes from; that of `IncrementCP` adds 1 to `CP`. -/
theorem State.InCell.atCompute_inv (hc : s.InCell) (h : s.Wf) {w : Which} {op : AluOp}
    {x y : Num64} {t : RegName} (h0 : s.pendingOpcode = some op) (h1 : s.pendingOperandOne = some x)
    (h2 : s.pendingOperandTwo = some y) (h3 : s.currentTarget = some t)
    (hinc : w = .inc → op = .add ∧ t = cpName ∧ x = s.cp.value ∧ y = ofInt 1) :
    (s.atCompute w op x y t).Inv := by
  have hslot : (s.atCompute w op x y t).SlotIs op x y (alu op x y) t := ⟨h0, h1, h2, rfl, h3⟩
  refine ⟨h.atCompute hc.running w op x y t, fun _ =>
    ⟨rfl, hc.clock, hc.cellEq, ⟨op, x, y, t, hslot, rfl⟩, fun hw => ?_⟩⟩
  obtain ⟨rfl, rfl, rfl, rfl⟩ := hinc hw
  exact hslot

/-- R80: the start of a cell, with the bus released. -/
theorem State.Wf.startCell_inv (h : s.Wf) {i : Nat} (hi : i ≤ s.mem.length)
    (hclock : s.cycleTime.isSome) (ha : s.busActive = false) (hm : s.busMessage = []) :
    (s.startCell i).Inv := by
  refine ⟨h.startCell hi, fun _ => ?_⟩
  cases hl : s.memRead i with
  | none =>
    rw [State.startCell_past s i hl]
    exact ⟨ha, hm⟩
  | some l =>
    rw [State.startCell_fetch s i hl]
    refine ⟨rfl, hclock, rfl, ?_⟩
    change Config.msgFetch l = Config.msgFetch ((s.memRead i).getD [])
    rw [hl, Option.getD_some]

end inv

/-! ### The stages and the step -/

section stages

variable {s t : State}

/-- R91: everything a next state of the resolve stage can be. -/
theorem resolveRelease_cases {w : Which} {op : AluOp} {a : RegName} {v : Num64}
    (h : resolveRelease w op a v s = .next t) :
    (s.readOperand a = none ∧ t = s.busRelease.raiseFault .uninitializedRead) ∨
      ∃ x, s.readOperand a = some x ∧ t = (s.busRelease.stage op x v a).atCompute w op x v a := by
  cases hx : s.readOperand a with
  | none =>
    rw [resolveRelease_none w op v hx] at h
    exact .inl ⟨rfl, (Host.Outcome.next.inj h).symm⟩
  | some x =>
    rw [resolveRelease_some w op v hx] at h
    exact .inr ⟨x, rfl, (Host.Outcome.next.inj h).symm⟩

/-- R94: an instruction's own compute stage, on the slot as it stands. -/
theorem startCompute_main_inv (h : s.Wf) (hc : s.InCell) (hs : startCompute .main s = .next t) :
    t.Inv := by
  rcases startCompute_cases hs with ⟨-, rfl⟩ | ⟨op, x, y, n, h0, h1, h2, h3, rfl⟩
  · exact h.raiseFault_inv _
  · exact hc.atCompute_inv h h0 h1 h2 h3 nofun

theorem exec_inv {i : Instr} (h : s.Wf) (hc : s.InCell) (hs : exec i s = .next t) : t.Inv := by
  rcases exec_cases i s with ⟨a, b, v, -, -, -, he⟩ | he | he | ⟨op, a, b, v, ha, hb, he⟩ | he <;>
    rw [he] at hs
  case inr.inr.inr.inr => exact startCompute_main_inv h hc hs
  all_goals obtain rfl := Host.Outcome.next.inj hs
  case inl => exact (hc.writeReg _ _).atIncrement_inv (h.writeReg _ _)
  case inr.inl => exact hc.atIncrement_inv h
  case inr.inr.inl => exact h.refuse_inv _
  case inr.inr.inr.inl => exact hc.atResolve_main_inv h op ha hb

/-- R91: the resolve hold of `IncrementCP` reads `CP` itself, so its compute hold adds 1 to it. -/
theorem resolveRelease_inv {w : Which} {op : AluOp} {a : RegName} {v : Num64} (h : s.Wf)
    (hc : s.InCell) (ha : s.isReg a) (hinc : w = .inc → op = .add ∧ a = cpName ∧ v = ofInt 1)
    (hs : resolveRelease w op a v s = .next t) : t.Inv := by
  rcases resolveRelease_cases hs with ⟨-, rfl⟩ | ⟨x, hx, rfl⟩
  · exact h.busRelease.raiseFault_inv _
  · refine (hc.busRelease.stage op x v a).atCompute_inv (h.busRelease.stage op x v ha)
      rfl rfl rfl rfl (fun hw => ?_)
    obtain ⟨hop, rfl, hv⟩ := hinc hw
    have hcp : s.cp.value = x := by simpa [State.readOperand] using hx
    exact ⟨hop, rfl, hcp.symm, hv⟩

theorem computeRelease_inv {i : Nat} {w : Which} (h : s.Wf) (hc : s.InCell)
    (hs : computeRelease i w s = .next t) : t.Inv := by
  obtain ⟨n, r, -, -, ⟨-, rfl⟩ | ⟨-, hi, rfl⟩⟩ := computeRelease_cases hs
  · exact (hc.busRelease.writeTarget n r).atIncrement_inv (h.busRelease.writeTarget n r)
  · exact (h.busRelease.writeTarget n r).startCell_inv (by simpa using hi) (by simpa using hc.clock)
      (by simp) (by simp)

/-- R30: every step keeps the invariant. -/
theorem step_inv (h : s.Inv) (hs : step s = .next t) : t.Inv := by
  obtain ⟨hwf, hphase⟩ := h
  have hok := hphase (step_live hs)
  have hcell := hok.inCell
  rcases step_cases hs with ⟨-, rfl⟩ | ⟨i, l, ins, hp, -, -, he⟩ | ⟨i, l, hp, -, rfl⟩ |
    ⟨i, w, op, a, v, hp, he⟩ | ⟨i, w, hp, he⟩
  · exact ⟨hwf, hphase⟩
  · exact exec_inv (hwf.fetched l) ((hcell (by simp [hp])).fetched l) he
  · exact (hwf.fetched l).refuse_inv _
  · rw [State.PhaseOk, hp] at hok
    obtain ⟨-, -, -, ha, -, hinc⟩ := hok
    exact resolveRelease_inv hwf (hcell (by simp [hp])) ha hinc he
  · exact computeRelease_inv hwf (hcell (by simp [hp])) he

end stages

end Sys2Proof.Machine

namespace Sys2Proof.Proofs

open Sys2Proof.Machine

/-- Settles O49: each stage ends at a marked state, a hold or the start of a cell, and the invariant
holds at each of these. -/
theorem stepKeepsInvariant : Obligations.StepKeepsInvariant := fun _ _ => step_inv

end Sys2Proof.Proofs
end

section
/-! PROOFS. Who writes registers, `CP`, `IR` and parameters (R15 to R19, R27, R32), said once for each
stage and for the step. -/

namespace Sys2Proof.Machine

/-- `t` has the registers, `CP`, `IR` and the parameters of `s`. -/
structure State.SameRegisters (s t : State) : Prop where
  x : t.x = s.x
  cp : t.cp = s.cp
  ir : t.ir = s.ir
  params : t.params = s.params

section writes

variable {s t : State}

theorem State.SameRegisters.trans {u : State} (h : s.SameRegisters t) (h' : t.SameRegisters u) :
    s.SameRegisters u :=
  ⟨h'.x.trans h.x, h'.cp.trans h.cp, h'.ir.trans h.ir, h'.params.trans h.params⟩

theorem State.sameRegisters_startCell (s : State) (i : Nat) : s.SameRegisters (s.startCell i) :=
  ⟨s.startCell_x i, s.startCell_cp i, s.startCell_ir i, s.startCell_params i⟩

/-! ### What each stage writes -/

theorem startCompute_sameRegisters {w : Which} (h : startCompute w s = .next t) :
    s.SameRegisters t := by
  rcases startCompute_cases h with ⟨-, rfl⟩ | ⟨_, _, _, _, -, -, -, -, rfl⟩ <;>
    exact ⟨rfl, rfl, rfl, rfl⟩

theorem resolveRelease_sameRegisters {w : Which} {op : AluOp} {a : RegName} {v : Num64}
    (h : resolveRelease w op a v s = .next t) : s.SameRegisters t := by
  rcases resolveRelease_cases h with ⟨-, rfl⟩ | ⟨x, -, rfl⟩ <;> exact ⟨rfl, rfl, rfl, rfl⟩

/-- R83: up to the next hold, `mov` alone writes a register, and only one of `AVAIL`. -/
theorem exec_writes {i : Instr} (h : exec i s = .next t) :
    s.SameRegisters t ∨
      ∃ a b v, i = .mov a b ∧ a ∈ s.params.avail ∧ (s.writeReg a v).SameRegisters t := by
  rcases exec_cases i s with ⟨a, b, v, hi, ha, -, he⟩ | he | he | ⟨op, a, b, v, -, -, he⟩ | he <;>
    rw [he] at h
  case inr.inr.inr.inr => exact .inl (startCompute_sameRegisters h)
  all_goals obtain rfl := Host.Outcome.next.inj h
  case inl => exact .inr ⟨a, b, _, hi, ha, rfl, rfl, rfl, rfl⟩
  all_goals exact .inl ⟨rfl, rfl, rfl, rfl⟩

/-- R96: the write-back step writes the target of the slot and nothing else. -/
theorem computeRelease_writes {i : Nat} {w : Which} (h : computeRelease i w s = .next t) :
    ∃ n r, s.currentTarget = some n ∧ (s.writeTarget n r).SameRegisters t := by
  have released (n : RegName) (r : Num64) :
      (s.writeTarget n r).SameRegisters (s.busRelease.writeTarget n r) :=
    ⟨by simp [State.writeTarget_x], by simp [State.writeTarget_cp], by simp, by simp⟩
  obtain ⟨n, r, hn, -, ⟨-, rfl⟩ | ⟨-, -, rfl⟩⟩ := computeRelease_cases h
  · exact ⟨n, r, hn, (released n r).trans ⟨rfl, rfl, rfl, rfl⟩⟩
  · exact ⟨n, r, hn, (released n r).trans (State.sameRegisters_startCell _ _)⟩

/-- R17: everything a step writes to registers, `CP` and `IR`, by the hold it releases. -/
theorem step_writes (h : step s = .next t) :
    s.SameRegisters t ∨
      (∃ i l, s.phase = .fetchHold i ∧ s.memRead i = some l ∧
        ((s.fetched l).SameRegisters t ∨
          ∃ a b v, decode s.params.tokenizeStrict l = .ok (.mov a b) ∧ a ∈ s.params.avail ∧
            ((s.fetched l).writeReg a v).SameRegisters t)) ∨
      ∃ i w n r, s.phase = .computeHold i w ∧ s.currentTarget = some n ∧
        (s.writeTarget n r).SameRegisters t := by
  rcases step_cases h with ⟨-, rfl⟩ | ⟨i, l, ins, hp, hl, hd, he⟩ | ⟨i, l, hp, hl, rfl⟩ |
    ⟨i, w, op, a, v, -, he⟩ | ⟨i, w, hp, he⟩
  · exact .inl ⟨rfl, rfl, rfl, rfl⟩
  · rcases exec_writes he with hsame | ⟨a, b, v, rfl, ha, hmov⟩
    · exact .inr (.inl ⟨i, l, hp, hl, .inl hsame⟩)
    · exact .inr (.inl ⟨i, l, hp, hl, .inr ⟨a, b, v, hd, ha, hmov⟩⟩)
  · exact .inr (.inl ⟨i, l, hp, hl, .inl ⟨rfl, rfl, rfl, rfl⟩⟩)
  · exact .inl (resolveRelease_sameRegisters he)
  · obtain ⟨n, r, hn, hw⟩ := computeRelease_writes he
    exact .inr (.inr ⟨i, w, n, r, hp, hn, hw⟩)

/-- R27, R32: no step writes a parameter. -/
theorem step_params (h : step s = .next t) : t.params = s.params := by
  rcases step_writes h with hsame | ⟨i, l, -, -, hsame | ⟨a, b, v, -, -, hsame⟩⟩ |
    ⟨i, w, n, r, -, -, hsame⟩
  · exact hsame.params
  · exact hsame.params
  · exact hsame.params
  · exact hsame.params.trans (s.writeTarget_params n r)

/-! ### What a read sees of it -/

theorem State.SameRegisters.readReg (h : s.SameRegisters t) (n : RegName) :
    t.readReg n = s.readReg n := by simp [State.readReg, h.x]

/-- R14, R17: a register write is seen at its own name alone, and only where `AVAIL` has it. -/
theorem State.Wf.readReg_writeReg_ne (h : s.Wf) {m n : RegName} {v : Num64}
    (hne : (s.writeReg m v).readReg n ≠ s.readReg n) : n = m ∧ n ∈ s.params.avail := by
  have hnm : n = m := by
    by_contra hother
    exact hne (State.readReg_writeReg_other hother v)
  refine ⟨hnm, ?_⟩
  by_contra habsent
  rw [← h.regNames, hnm] at habsent
  exact hne (congrArg (·.readReg n) (State.writeReg_absent habsent v))

/-- R96: so is a write-back, which leaves the registers alone where its target is `CP`. -/
theorem State.Wf.readReg_writeTarget_ne (h : s.Wf) {m n : RegName} {r : Num64}
    (hne : (s.writeTarget m r).readReg n ≠ s.readReg n) : n = m ∧ n ∈ s.params.avail := by
  by_cases hm : m = cpName
  · subst hm
    rw [State.writeTarget_cp_name] at hne
    exact absurd rfl hne
  · rw [State.writeTarget_of_ne hm] at hne
    exact h.readReg_writeReg_ne hne

theorem State.eq_cpName_of_writeTarget_cp_ne {m : RegName} {r : Num64}
    (hne : (s.writeTarget m r).cp ≠ s.cp) : m = cpName := by
  by_contra hm
  exact hne (by rw [State.writeTarget_of_ne hm, State.writeReg_cp])

end writes

/-! ### Loads -/

/-- R42, R128: the memory image and the cycle time of a valid load. -/
def State.withImage (s : State) (p : Text) (n : Nat) : State :=
  { s with cycleTime := some n, mem := buildImage p }

/-- R128, R134: everything a load can answer. -/
theorem loadProgram_cases (s : State) (p : Text) (n : Nat) :
    s.loadProgram p n = s ∨ s.loadProgram p n = s.refuse .reloadRace ∨
      (s.Live ∧ s.phase = .idle ∧ s.loadProgram p n = s.loadClear) ∨
      (s.Live ∧ s.phase = .idle ∧ n ≠ 0 ∧
        s.loadProgram p n = (s.loadClear.withImage p n).startCell 0) := by
  by_cases hlive : s.Live
  · by_cases hp : s.phase = .idle
    · by_cases hinvalid : p = [] ∨ n = 0
      · exact .inr (.inr (.inl ⟨hlive, hp, loadProgram_invalid hlive hp hinvalid⟩))
      · obtain ⟨htext, htime⟩ := not_or.1 hinvalid
        exact .inr (.inr (.inr ⟨hlive, hp, htime, loadProgram_valid hlive hp htext htime⟩))
    · exact .inr (.inl (loadProgram_running hlive hp p n))
  · exact .inl (loadProgram_frozen hlive p n)

/-- R32: no load writes a parameter. -/
theorem loadProgram_params (s : State) (p : Text) (n : Nat) :
    (s.loadProgram p n).params = s.params := by
  rcases loadProgram_cases s p n with he | he | ⟨-, -, he⟩ | ⟨-, -, -, he⟩ <;> rw [he]
  · exact s.refuse_params _
  · exact s.loadClear_params
  · exact (State.startCell_params _ _).trans s.loadClear_params

end Sys2Proof.Machine

namespace Sys2Proof.Proofs

open Sys2Proof.Machine

/-- Settles O36: no stage and no load writes a parameter. -/
theorem configurationIsReadOnly : Obligations.ConfigurationIsReadOnly :=
  ⟨fun _ _ => step_params, loadProgram_params⟩

/-- Settles O27: by the hold that the step releases. -/
theorem registerWriters : Obligations.RegisterWriters := by
  intro s t hwf hs
  rcases step_writes hs with hsame | ⟨i, l, hp, hl, hsame | ⟨a, b, v, hd, -, hsame⟩⟩ |
    ⟨i, w, m, r, hp, hm, hsame⟩
  · exact ⟨fun n hne => absurd (hsame.readReg n) hne, (absurd hsame.cp ·), (absurd hsame.ir ·)⟩
  · exact ⟨fun n hne => absurd (hsame.readReg n) hne, (absurd hsame.cp ·), fun _ => ⟨i, hp⟩⟩
  · refine ⟨fun n hne => ?_, (absurd hsame.cp ·), fun _ => ⟨i, hp⟩⟩
    rw [hsame.readReg] at hne
    obtain ⟨rfl, hn⟩ := (hwf.fetched l).readReg_writeReg_ne hne
    exact ⟨hn, .inl ⟨i, l, b, hp, hl, hd⟩⟩
  · refine ⟨fun n hne => ?_, fun hne => ?_, fun hne => ?_⟩
    · rw [hsame.readReg] at hne
      obtain ⟨rfl, hn⟩ := hwf.readReg_writeTarget_ne hne
      exact ⟨hn, .inr ⟨i, w, hp, hm⟩⟩
    · rw [hsame.cp] at hne
      obtain rfl := State.eq_cpName_of_writeTarget_cp_ne hne
      exact ⟨i, w, hp, hm⟩
    · exact absurd (hsame.ir.trans (s.writeTarget_ir m r)) hne

end Sys2Proof.Proofs
end

section
/-! PROOFS. The invariants at creation and over every load (R29, R123, R127 to R134). -/

namespace Sys2Proof.Machine

/-! ### What the slot invariant and the value bounds depend on -/

section frames

variable {s t : State}

/-- R104: the slot of the last `IncrementCP` is allowed in every phase. -/
theorem State.SlotIsIncrement.slotInv (h : s.SlotIsIncrement) : s.SlotInv := by
  unfold State.SlotInv
  split <;> trivial

theorem State.SlotEmpty.slotIsIncrement (h : s.SlotEmpty) : s.SlotIsIncrement := .inl h

theorem State.SlotInv.slotIsIncrement_of_idle (h : s.SlotInv) (hp : s.phase = .idle) :
    s.SlotIsIncrement := by rwa [State.SlotInv, hp] at h

theorem State.SlotIsIncrement.startCell (h : s.SlotIsIncrement) (i : Nat) :
    (s.startCell i).SlotIsIncrement := by
  simpa [State.SlotIsIncrement, State.SlotEmpty, State.SlotIs] using h

theorem State.SlotIsIncrement.withImage (h : s.SlotIsIncrement) (p : Text) (n : Nat) :
    (s.withImage p n).SlotIsIncrement := h

theorem State.SlotInv.refuse (h : s.SlotInv) (k : RefusalKind) : (s.refuse k).SlotInv := h

theorem State.ValuesOk.withImage (h : s.ValuesOk) (p : Text) (n : Nat) :
    (s.withImage p n).ValuesOk :=
  { h with }

theorem State.ValuesOk.startCell (h : s.ValuesOk) (i : Nat) : (s.startCell i).ValuesOk where
  regs := by simpa using h.regs
  cp := by simpa using h.cp
  one := by simpa using h.one
  two := by simpa using h.two
  result := by simpa using h.result

theorem State.ValuesOk.refuse (h : s.ValuesOk) (k : RefusalKind) : (s.refuse k).ValuesOk :=
  { h with }

/-- A state whose registers were never written has no value to bound but `CP`'s. -/
theorem State.valuesOk_of_unwritten (hx : ∀ e ∈ s.x, e.2 = none) (hcp : s.cp = State.reset.cp)
    (hslot : s.SlotEmpty) : s.ValuesOk := by
  obtain ⟨-, hone, htwo, hresult, -⟩ := hslot
  exact
    { regs := fun e he r hr => by simp [hx e he] at hr
      cp := by rw [hcp]; decide
      one := by simp [hone]
      two := by simp [htwo]
      result := by simp [hresult] }

end frames

/-! ### Creation -/

/-- R29, R123: the reset state under parameters `p`, with one uninitialized register for each name. -/
def State.fresh (p : Params) : State :=
  { State.reset with x := p.avail.map (fun n => (n, none)), params := p }

theorem State.reset_eq_fresh : State.reset = State.fresh ⟨[], false, false⟩ := rfl

theorem State.create_of_availOk {avail : List RegName} (h : availOk avail = true)
    (strict clear : Bool) :
    State.create avail strict clear = State.fresh ⟨avail.dedup, strict, clear⟩ := by
  simp [State.create, State.fresh, h]

theorem State.create_of_not_availOk {avail : List RegName} (h : ¬ availOk avail = true)
    (strict clear : Bool) :
    State.create avail strict clear = (State.fresh ⟨[], strict, clear⟩).refuse .badConfig := by
  simp [State.create, State.fresh, State.reset, h]

theorem availOk_dedup {avail : List RegName} (h : availOk avail = true) :
    availOk avail.dedup = true := by
  simp only [availOk, List.all_eq_true, List.mem_dedup] at h ⊢
  exact h

theorem State.unwritten_registers {e : RegName × Option Reg} {avail : List RegName}
    (he : e ∈ avail.map (fun n => (n, (none : Option Reg)))) : e.2 = none := by
  obtain ⟨n, -, rfl⟩ := List.mem_map.1 he
  rfl

theorem State.unwritten_names (avail : List RegName) :
    (avail.map (fun n => (n, (none : Option Reg)))).map Prod.fst = avail := by
  simp [Function.comp_def]

section fresh

variable {p : Params}

theorem State.fresh_wf (hok : availOk p.avail = true) (hnodup : p.avail.Nodup) :
    (State.fresh p).Wf where
  availOk := hok
  availNodup := hnodup
  regNames := State.unwritten_names p.avail
  regsDirect := fun e he r hr => by simp [State.unwritten_registers he] at hr
  cpDirect := rfl
  targetReg := nofun
  slotWhole := nofun
  cyclePos := nofun
  memWf := Memory.wf_nil
  seqLe := Nat.le_refl 0
  seqLt := fun hp => absurd rfl hp

theorem State.fresh_inv (hok : availOk p.avail = true) (hnodup : p.avail.Nodup) :
    (State.fresh p).Inv :=
  ⟨State.fresh_wf hok hnodup, fun _ => ⟨rfl, rfl⟩⟩

theorem State.fresh_slotEmpty (p : Params) : (State.fresh p).SlotEmpty := ⟨rfl, rfl, rfl, rfl, rfl⟩

theorem State.fresh_slotInv (p : Params) : (State.fresh p).SlotInv :=
  (State.fresh_slotEmpty p).slotIsIncrement.slotInv

theorem State.fresh_valuesOk (p : Params) : (State.fresh p).ValuesOk :=
  State.valuesOk_of_unwritten (fun _ he => State.unwritten_registers he) rfl
    (State.fresh_slotEmpty p)

end fresh

theorem State.create_invariants (avail : List RegName) (strict clear : Bool) :
    (State.create avail strict clear).Inv ∧ (State.create avail strict clear).ValuesOk ∧
      (State.create avail strict clear).SlotInv := by
  by_cases hok : availOk avail = true
  · rw [State.create_of_availOk hok]
    exact ⟨State.fresh_inv (availOk_dedup hok) avail.nodup_dedup, State.fresh_valuesOk _,
      State.fresh_slotInv _⟩
  · rw [State.create_of_not_availOk hok]
    exact ⟨(State.fresh_wf rfl List.nodup_nil).refuse_inv _, (State.fresh_valuesOk _).refuse _,
      (State.fresh_slotInv _).refuse _⟩

/-! ### Loads -/

section load

variable {s : State}

/-- R127: clearing the registers restores names and slot as creation made them. -/
theorem State.Wf.clearRegisters (h : s.Wf) : s.clearRegisters.Wf :=
  { h with
    regNames := State.unwritten_names s.params.avail
    regsDirect := fun e he r hr => by simp [State.unwritten_registers he] at hr
    cpDirect := rfl
    targetReg := nofun
    slotWhole := nofun }

theorem State.clearRegisters_slotEmpty (s : State) : s.clearRegisters.SlotEmpty :=
  ⟨rfl, rfl, rfl, rfl, rfl⟩

theorem State.clearRegisters_valuesOk (s : State) : s.clearRegisters.ValuesOk :=
  State.valuesOk_of_unwritten (fun _ he => State.unwritten_registers he) rfl
    s.clearRegisters_slotEmpty

/-- R24: with `seq` at 0, emptying the memory between runs keeps the state well-formed. -/
theorem State.Wf.emptyMemory (h : s.Wf) (hp : s.phase = .idle) : { s with mem := [], seq := 0 }.Wf :=
  { h with memWf := Memory.wf_nil, seqLe := Nat.le_refl 0, seqLt := fun hne => absurd hp hne }

theorem State.Wf.loadClear (h : s.Wf) (hp : s.phase = .idle) : s.loadClear.Wf := by
  cases hclear : s.params.clearOnLoad with
  | false =>
    rw [State.loadClear_keep hclear]
    exact h.emptyMemory hp
  | true =>
    rw [State.loadClear_reset hclear]
    exact (h.emptyMemory hp).clearRegisters

theorem State.ValuesOk.loadClear (h : s.ValuesOk) : s.loadClear.ValuesOk := by
  cases hclear : s.params.clearOnLoad with
  | false =>
    rw [State.loadClear_keep hclear]
    exact { h with }
  | true =>
    rw [State.loadClear_reset hclear]
    exact State.clearRegisters_valuesOk _

theorem State.SlotIsIncrement.loadClear (h : s.SlotIsIncrement) : s.loadClear.SlotIsIncrement := by
  cases hclear : s.params.clearOnLoad with
  | false =>
    rw [State.loadClear_keep hclear]
    exact h
  | true =>
    rw [State.loadClear_reset hclear]
    exact (State.clearRegisters_slotEmpty _).slotIsIncrement

theorem State.Wf.withImage (h : s.Wf) (hp : s.phase = .idle) (hseq : s.seq = 0) (p : Text) {n : Nat}
    (hn : n ≠ 0) : (s.withImage p n).Wf :=
  { h with
    cyclePos := fun _ ht => Option.some.inj ht ▸ Nat.pos_of_ne_zero hn
    memWf := buildImage_wf p
    seqLe := hseq ▸ Nat.zero_le _
    seqLt := fun hne => absurd hp hne }

/-- R30: every load keeps the invariant. -/
theorem State.Inv.loadProgram (h : s.Inv) (p : Text) (n : Nat) : (s.loadProgram p n).Inv := by
  obtain ⟨hwf, hphase⟩ := h
  have hreleased (hlive : s.Live) (hp : s.phase = .idle) :
      s.loadClear.busActive = false ∧ s.loadClear.busMessage = [] := by
    have hok := hphase hlive
    rw [State.PhaseOk, hp] at hok
    simpa using hok
  rcases loadProgram_cases s p n with he | he | ⟨hlive, hp, he⟩ | ⟨hlive, hp, hn, he⟩ <;>
    rw [he]
  · exact ⟨hwf, hphase⟩
  · exact hwf.refuse_inv _
  · refine ⟨hwf.loadClear hp, fun _ => ?_⟩
    rw [State.PhaseOk, State.loadClear_phase, hp]
    exact hreleased hlive hp
  · obtain ⟨hactive, hmessage⟩ := hreleased hlive hp
    exact ((hwf.loadClear hp).withImage (by simpa using hp) (by simp) p hn).startCell_inv
      (Nat.zero_le _) rfl hactive hmessage

/-- R106: every load keeps the bounds on values. -/
theorem State.ValuesOk.loadProgram (h : s.ValuesOk) (p : Text) (n : Nat) :
    (s.loadProgram p n).ValuesOk := by
  rcases loadProgram_cases s p n with he | he | ⟨-, -, he⟩ | ⟨-, -, -, he⟩ <;> rw [he]
  · exact h
  · exact h.refuse _
  · exact h.loadClear
  · exact (h.loadClear.withImage p n).startCell 0

/-- R104: every load keeps the slot invariant. -/
theorem State.SlotInv.loadProgram (h : s.SlotInv) (p : Text) (n : Nat) :
    (s.loadProgram p n).SlotInv := by
  rcases loadProgram_cases s p n with he | he | ⟨-, hp, he⟩ | ⟨-, hp, -, he⟩ <;> rw [he]
  · exact h
  · exact h.refuse _
  · exact (h.slotIsIncrement_of_idle hp).loadClear.slotInv
  · exact (((h.slotIsIncrement_of_idle hp).loadClear.withImage p n).startCell 0).slotInv

end load

end Sys2Proof.Machine

namespace Sys2Proof.Proofs

open Sys2Proof.Machine

/-- Settles O48: the reset state is the fresh state of no names at all. -/
theorem creationMeetsInvariants : Obligations.CreationMeetsInvariants := by
  refine ⟨?_, State.create_invariants⟩
  rw [State.reset_eq_fresh]
  exact ⟨State.fresh_inv rfl List.nodup_nil, State.fresh_valuesOk _, State.fresh_slotInv _⟩

/-- Settles O50: by the four answers of a load. -/
theorem loadKeepsInvariants : Obligations.LoadKeepsInvariants := fun _ p n hinv =>
  ⟨hinv.loadProgram p n, (·.loadProgram p n), (·.loadProgram p n)⟩

/-- Settles O39: each field by definition; the slot is that of a fresh state. -/
theorem resetValues : Obligations.ResetValues :=
  ⟨rfl, fun _ => rfl, rfl, rfl, rfl, rfl, rfl, State.fresh_slotEmpty ⟨[], false, false⟩,
    rfl, rfl, rfl, rfl⟩

/-- Settles O46: position `k` of the numbered memory pairs `k` with the cell read at `k`. -/
theorem snapshotShowsState : Obligations.SnapshotShowsState := by
  refine fun s => ⟨fun k => ?_, rfl, rfl, rfl, rfl, rfl⟩
  simp [State.snapshot, State.memRead, List.getElem?_zipIdx, Function.comp_def]

end Sys2Proof.Proofs
end

section
/-! PROOFS. Every step keeps the bounds on values (R106) and the slot invariant (R104, R136); with the
state invariant they hold of every reachable state. -/

namespace Sys2Proof.Machine

/-! ### The ALU makes no NaN from a literal -/

theorem isNaN_of_isFinite {d : Num64} (h : isFinite d = true) : isNaN d = false := by
  rw [isFinite, bne_iff_ne] at h
  simp [isNaN, h]

theorem isInf_of_isFinite {d : Num64} (h : isFinite d = true) : isInf d = false := by
  rw [isFinite, bne_iff_ne] at h
  simp [isInf, h]

theorem isZero_of_isInf {d : Num64} (h : isInf d = true) : isZero d = false := by
  simp only [isInf, Bool.and_eq_true, beq_iff_eq] at h
  simp [isZero, h.1]

/-- R98: changing the sign leaves the exponent. -/
theorem isFinite_negate (d : Num64) : isFinite (negate d) = isFinite d := by
  have hexp : (negate d).extractLsb' 52 11 = d.extractLsb' 52 11 := by
    rw [negate, BitVec.extractLsb'_xor]
    simp
  rw [isFinite, isFinite, expOf, expOf, hexp]

theorem IsLiteral.isFinite {v : Num64} (h : IsLiteral v) : isFinite v = true := by
  obtain ⟨n, -, hn, rfl⟩ := h
  exact (Proofs.literalsAreExact n hn).1

theorem IsLiteral.isZero {v : Num64} (h : IsLiteral v) : isZero v = false := by
  obtain ⟨n, hn0, hn, rfl⟩ := h
  obtain ⟨-, hvalue⟩ := Proofs.literalsAreExact n hn
  by_contra hzero
  simp only [Machine.isZero, Bool.not_eq_false, Bool.and_eq_true, beq_iff_eq] at hzero
  have hscaled : scaled (ofInt n) = 0 := by simp [scaled, magnitude, hzero]
  have hunits : oneUnits ≠ 0 := pow_ne_zero 1074 two_ne_zero
  exact mul_ne_zero hn0 (Int.natCast_ne_zero.2 hunits) (hvalue.symm.trans hscaled)

theorem isNaN_pack_roundMag (neg : Bool) (num den : Nat) :
    isNaN (pack neg (roundMag num den)) = false :=
  isNaN_pack neg (roundMag_le_infMag num den)

section alu

variable {x y : Num64} (nan : Num64)

theorem isNaN_addNum (hx : isNaN x = false) (hy : isFinite y = true) :
    isNaN (addNum nan x y) = false := by
  have hyNaN := isNaN_of_isFinite hy
  have hyInf := isInf_of_isFinite hy
  by_cases hxInf : isInf x = true
  · simp [addNum, hx, hyNaN, hyInf, hxInf]
  · simp [addNum, hx, hyNaN, hyInf, hxInf, isNaN_pack_roundMag]

theorem isNaN_mulNum (hx : isNaN x = false) (hy : isFinite y = true) (hy0 : isZero y = false) :
    isNaN (mulNum nan x y) = false := by
  have hyNaN := isNaN_of_isFinite hy
  have hyInf := isInf_of_isFinite hy
  by_cases hxInf : isInf x = true
  · simp [mulNum, hx, hyNaN, hyInf, hxInf, isZero_of_isInf hxInf, hy0, isNaN_pack]
  · simp [mulNum, hx, hyNaN, hyInf, hxInf, isNaN_pack_roundMag]

theorem isNaN_divNum (hx : isNaN x = false) (hy : isFinite y = true) (hy0 : isZero y = false) :
    isNaN (divNum nan x y) = false := by
  have hyNaN := isNaN_of_isFinite hy
  have hyInf := isInf_of_isFinite hy
  by_cases hxInf : isInf x = true
  · simp [divNum, hx, hyNaN, hyInf, hxInf, isNaN_pack]
  · simp [divNum, hx, hyNaN, hyInf, hxInf, hy0, isNaN_pack_roundMag]

end alu

/-- R106 item 1: with an accepted literal as the second operand no operation makes a NaN. -/
theorem isNaN_alu_literal (op : AluOp) {x y : Num64} (hx : isNaN x = false) (hy : IsLiteral y) :
    isNaN (alu op x y) = false := by
  cases op with
  | add => rw [alu_add]; exact isNaN_addNum _ hx hy.isFinite
  | sub => rw [alu_sub]; exact isNaN_addNum _ hx ((isFinite_negate y).trans hy.isFinite)
  | mul => rw [alu_mul]; exact isNaN_mulNum _ hx hy.isFinite hy.isZero
  | div => rw [alu_div]; exact isNaN_divNum _ hx hy.isFinite hy.isZero

/-! ### The bounds on values, stage by stage -/

section values

variable {s t : State}

theorem State.ValuesOk.busRelease (h : s.ValuesOk) : s.busRelease.ValuesOk := { h with }

theorem State.ValuesOk.fetched (h : s.ValuesOk) (l : Text) : (s.fetched l).ValuesOk := { h with }

theorem State.ValuesOk.raiseFault (h : s.ValuesOk) (k : FaultKind) : (s.raiseFault k).ValuesOk :=
  { h with }

theorem State.ValuesOk.atResolve (h : s.ValuesOk) (w : Which) (op : AluOp) (a : RegName) (b : Token)
    (v : Int) : (s.atResolve w op a b v).ValuesOk :=
  { h with }

theorem State.ValuesOk.stage (h : s.ValuesOk) (op : AluOp) {x y : Num64} (a : RegName)
    (hx : isNaN x = false) (hy : IsLiteral y) : (s.stage op x y a).ValuesOk :=
  { h with
    one := fun _ hv => Option.some.inj hv ▸ hx
    two := fun _ hv => Option.some.inj hv ▸ hy }

/-- R95: the staged operands compute to no NaN. -/
theorem State.ValuesOk.atCompute (h : s.ValuesOk) (w : Which) (op : AluOp) {x y : Num64}
    (t : RegName) (hx : s.pendingOperandOne = some x) (hy : s.pendingOperandTwo = some y) :
    (s.atCompute w op x y t).ValuesOk :=
  { h with
    result := fun _ hv =>
      Option.some.inj hv ▸ isNaN_alu_literal op (h.one x hx) (h.two y hy) }

theorem State.ValuesOk.writeReg (h : s.ValuesOk) (n : RegName) {v : Num64} (hv : isNaN v = false) :
    (s.writeReg n v).ValuesOk :=
  { h with regs := State.writeReg_forall (P := fun r => isNaN r.value = false) h.regs hv }

theorem State.ValuesOk.writeTarget (h : s.ValuesOk) (n : RegName) {r : Num64}
    (hr : isNaN r = false) : (s.writeTarget n r).ValuesOk := by
  by_cases hn : n = cpName
  · subst hn
    rw [State.writeTarget_cp_name]
    exact { h with cp := hr }
  · rw [State.writeTarget_of_ne hn]
    exact h.writeReg n hr

theorem mem_of_lookupReg {x : List (RegName × Option Reg)} {n : RegName} {r : Reg}
    (h : lookupReg x n = some r) : (n, some r) ∈ x := by
  induction x with
  | nil => cases h
  | cons e rest ih =>
    obtain ⟨k, o⟩ := e
    rw [lookupReg] at h
    split at h
    next hk => exact hk ▸ h ▸ List.mem_cons_self
    next => exact List.mem_cons_of_mem _ (ih h)

/-- R91: an operand is read from `CP` or from a register. -/
theorem State.ValuesOk.readOperand (h : s.ValuesOk) {a : RegName} {x : Num64}
    (hx : s.readOperand a = some x) : isNaN x = false := by
  rw [State.readOperand] at hx
  split at hx
  next => exact Option.some.inj hx ▸ h.cp
  next =>
    obtain ⟨r, hr, rfl⟩ := Option.map_eq_some_iff.1 hx
    exact h.regs _ (mem_of_lookupReg hr) r rfl

theorem startCompute_valuesOk {w : Which} (h : s.ValuesOk) (hs : startCompute w s = .next t) :
    t.ValuesOk := by
  rcases startCompute_cases hs with ⟨-, rfl⟩ | ⟨op, x, y, n, -, hx, hy, -, rfl⟩
  · exact h.raiseFault _
  · exact h.atCompute w op n hx hy

theorem exec_valuesOk {i : Instr} (h : s.ValuesOk) (hs : exec i s = .next t) : t.ValuesOk := by
  rcases exec_cases i s with ⟨a, b, v, -, -, -, he⟩ | he | he | ⟨op, a, b, v, -, -, he⟩ | he <;>
    rw [he] at hs
  case inr.inr.inr.inr => exact startCompute_valuesOk h hs
  all_goals obtain rfl := Host.Outcome.next.inj hs
  case inl => exact (h.writeReg a (isNaN_ofInt v)).atResolve _ _ _ _ _
  case inr.inr.inl => exact h.refuse _
  all_goals exact h.atResolve _ _ _ _ _

theorem resolveRelease_valuesOk {w : Which} {op : AluOp} {a : RegName} {v : Num64} (h : s.ValuesOk)
    (hv : IsLiteral v) (hs : resolveRelease w op a v s = .next t) : t.ValuesOk := by
  rcases resolveRelease_cases hs with ⟨-, rfl⟩ | ⟨x, hx, rfl⟩
  · exact h.busRelease.raiseFault _
  · exact (h.busRelease.stage op a (h.readOperand hx) hv).atCompute w op a rfl rfl

theorem computeRelease_valuesOk {i : Nat} {w : Which} (h : s.ValuesOk)
    (hs : computeRelease i w s = .next t) : t.ValuesOk := by
  obtain ⟨n, r, -, hr, hend⟩ := computeRelease_cases hs
  have hwritten := h.busRelease.writeTarget n (h.result r hr)
  rcases hend with ⟨-, rfl⟩ | ⟨-, -, rfl⟩
  · exact hwritten.atResolve _ _ _ _ _
  · exact hwritten.startCell _

/-- R106 items 1 and 2: every step keeps the bounds on values. -/
theorem step_valuesOk (hinv : s.Inv) (h : s.ValuesOk) (hs : step s = .next t) : t.ValuesOk := by
  have hok := hinv.2 (step_live hs)
  rcases step_cases hs with ⟨-, rfl⟩ | ⟨i, l, ins, -, -, -, he⟩ | ⟨i, l, -, -, rfl⟩ |
    ⟨i, w, op, a, v, hp, he⟩ | ⟨i, w, -, he⟩
  · exact h
  · exact exec_valuesOk (h.fetched l) he
  · exact (h.fetched l).refuse _
  · rw [State.PhaseOk, hp] at hok
    obtain ⟨-, -, -, -, hv, -⟩ := hok
    exact resolveRelease_valuesOk h hv he
  · exact computeRelease_valuesOk h he

end values

/-! ### The slot invariant, stage by stage -/

section slot

variable {s t : State}

theorem slotInv_of_computeHold {i : Nat} {w : Which} (h : s.phase = .computeHold i w) :
    s.SlotInv := by rw [State.SlotInv, h]; trivial

theorem slotInv_of_resolveHold_inc {i : Nat} {op : AluOp} {a : RegName} {v : Num64}
    (h : s.phase = .resolveHold i .inc op a v) : s.SlotInv := by rw [State.SlotInv, h]; trivial

theorem State.SlotInv.slotIsIncrement_of_fetchHold (h : s.SlotInv) {i : Nat}
    (hp : s.phase = .fetchHold i) : s.SlotIsIncrement := by rwa [State.SlotInv, hp] at h

theorem startCompute_slotInv {w : Which} (h : s.SlotInv) (hs : startCompute w s = .next t) :
    t.SlotInv := by
  rcases startCompute_cases hs with ⟨-, rfl⟩ | ⟨_, _, _, _, -, -, -, -, rfl⟩
  · exact h
  · exact slotInv_of_computeHold rfl

/-- R104: until the cell's own dispatch stages, its meaning leaves the slot as it was. -/
theorem exec_slotInv {i : Instr} (h : s.SlotIsIncrement) (hs : exec i s = .next t) : t.SlotInv := by
  rcases exec_cases i s with ⟨a, b, v, -, -, -, he⟩ | he | he | ⟨op, a, b, v, -, -, he⟩ | he <;>
    rw [he] at hs
  case inr.inr.inr.inr => exact startCompute_slotInv h.slotInv hs
  all_goals obtain rfl := Host.Outcome.next.inj hs
  case inl => exact slotInv_of_resolveHold_inc rfl
  case inr.inl => exact slotInv_of_resolveHold_inc rfl
  case inr.inr.inl => exact h.slotInv.refuse _
  case inr.inr.inr.inl => exact State.SlotIsIncrement.slotInv (s := s.atResolve .main op a b v) h

theorem resolveRelease_slotInv {w : Which} {op : AluOp} {a : RegName} {v : Num64} (h : s.SlotInv)
    (hs : resolveRelease w op a v s = .next t) : t.SlotInv := by
  rcases resolveRelease_cases hs with ⟨-, rfl⟩ | ⟨x, -, rfl⟩
  · exact h
  · exact slotInv_of_computeHold rfl

/-- R104: the write-back of `IncrementCP` puts into `CP` what its slot computed. -/
theorem writeTarget_slotIsIncrement {x r : Num64}
    (h : s.SlotIs .add x (ofInt 1) (alu .add x (ofInt 1)) cpName) (hr : s.pendingResult = some r) :
    (s.busRelease.writeTarget cpName r).SlotIsIncrement := by
  have ⟨_, _, _, hresult, _⟩ := h
  obtain rfl := Option.some.inj (hresult.symm.trans hr)
  rw [State.writeTarget_cp_name]
  exact .inr ⟨x, h, rfl⟩

theorem computeRelease_slotInv {i : Nat} {w : Which}
    (hinc : w = .inc →
      s.SlotIs .add s.cp.value (ofInt 1) (alu .add s.cp.value (ofInt 1)) cpName)
    (hs : computeRelease i w s = .next t) : t.SlotInv := by
  obtain ⟨n, r, hn, hr, ⟨-, rfl⟩ | ⟨hw, -, rfl⟩⟩ := computeRelease_cases hs
  · exact slotInv_of_resolveHold_inc rfl
  · have hslot := hinc hw
    have ⟨_, _, _, _, htarget⟩ := hslot
    obtain rfl := Option.some.inj (hn.symm.trans htarget)
    exact ((writeTarget_slotIsIncrement hslot hr).startCell _).slotInv

/-- R104, R136: every step keeps the slot invariant. -/
theorem step_slotInv (hinv : s.Inv) (h : s.SlotInv) (hs : step s = .next t) : t.SlotInv := by
  have hok := hinv.2 (step_live hs)
  rcases step_cases hs with ⟨-, rfl⟩ | ⟨i, l, ins, hp, -, -, he⟩ | ⟨i, l, hp, -, rfl⟩ |
    ⟨i, w, op, a, v, -, he⟩ | ⟨i, w, hp, he⟩
  · exact h
  · have hslot := h.slotIsIncrement_of_fetchHold hp
    exact exec_slotInv (s := s.fetched l) hslot he
  · exact h
  · exact resolveRelease_slotInv h he
  · rw [State.PhaseOk, hp] at hok
    obtain ⟨-, -, -, -, hinc⟩ := hok
    exact computeRelease_slotInv hinc he

end slot

/-- R12, R30: what creation gives and every step and every load keeps holds of every reachable state. -/
theorem Reachable.invariants {s : State} (h : Reachable s) : s.Inv ∧ s.ValuesOk ∧ s.SlotInv := by
  induction h with
  | create avail strict clear => exact State.create_invariants avail strict clear
  | step _ hs ih =>
    obtain ⟨hinv, hvalues, hslot⟩ := ih
    exact ⟨step_inv hinv hs, step_valuesOk hinv hvalues hs, step_slotInv hinv hslot hs⟩
  | load _ p n ih =>
    obtain ⟨hinv, hvalues, hslot⟩ := ih
    exact ⟨hinv.loadProgram p n, hvalues.loadProgram p n, hslot.loadProgram p n⟩

end Sys2Proof.Machine

namespace Sys2Proof.Proofs

open Sys2Proof.Machine

/-- Settles O53, by induction on how the state came about. -/
theorem reachableStatesMeetInvariants : Obligations.ReachableStatesMeetInvariants := fun _ h =>
  h.invariants

/-- Settles O47: the bound is part of the invariant, and what a load does first sets `seq` to 0. -/
theorem sequencerIndexStaysInMemory : Obligations.SequencerIndexStaysInMemory := by
  refine ⟨fun s h => ?_, fun s p n hlive hp hinvalid => ?_⟩
  · obtain ⟨⟨hwf, -⟩, -⟩ := h.invariants
    exact hwf.seqLe
  · rw [loadProgram_invalid hlive hp hinvalid, State.loadClear_seq]

end Sys2Proof.Proofs
end

section
/-! PROOFS. Memory: the lines a program text is split into (R41), the image they become (R42), and
who writes it (R43). -/

namespace Sys2Proof.Machine

/-! ### The kept lines of a text -/

/-- A text of separators alone has no piece that is kept. -/
theorem filter_pieces_of_all_sep (sep : Char → Bool) {l : Text} (h : ∀ c ∈ l, sep c = true) :
    (pieces sep l).filter (fun p => !p.isEmpty) = [] := by
  induction l with
  | nil => rfl
  | cons c cs ih =>
    obtain ⟨hc, hcs⟩ := List.forall_mem_cons.1 h
    rw [pieces, if_pos hc]
    exact ih hcs

/-- R52: whitespace holds no token. -/
theorem tokens_of_whitespace {l : Text} (h : ∀ c ∈ l, isWS c = true) : tokens l = [] :=
  filter_pieces_of_all_sep isWS h

/-- R72, R73: so a line of whitespace decodes as a skip of no tokens. -/
theorem decode_whitespace {l : Text} (h : ∀ c ∈ l, isWS c = true) :
    decode false l = .ok (.decodeSkip []) := by
  simp [decode, tokens_of_whitespace h, decodeTokens]

/-- R41: a line is kept unless its length is 0. -/
theorem filter_line_cons (l : Text) (ls : List Text) :
    (l :: ls).filter (fun l => !l.isEmpty) =
      (if l = [] then [] else [l]) ++ ls.filter (fun l => !l.isEmpty) := by
  cases l <;> rfl

theorem programLines_single {l : Text} (h : ∀ c ∈ l, isLF c = false) :
    programLines l = if l = [] then [] else [l] := by
  rw [programLines, pieces_single isLF l h, filter_line_cons, List.filter_nil, List.append_nil]

theorem programLines_append_lf {l : Text} (h : ∀ c ∈ l, isLF c = false) (p : Text) :
    programLines (l ++ '\n' :: p) = (if l = [] then [] else [l]) ++ programLines p := by
  rw [programLines, pieces_append_sep isLF l h '\n' (by decide), filter_line_cons, programLines]

/-! ### No stage writes memory -/

section writes

variable {s t : State}

theorem startCompute_mem {w : Which} (h : startCompute w s = .next t) : t.mem = s.mem := by
  rcases startCompute_cases h with ⟨-, rfl⟩ | ⟨_, _, _, _, -, -, -, -, rfl⟩ <;> rfl

theorem exec_mem {i : Instr} (h : exec i s = .next t) : t.mem = s.mem := by
  rcases exec_cases i s with ⟨_, _, _, -, -, -, he⟩ | he | he | ⟨_, _, _, _, -, -, he⟩ | he <;>
    rw [he] at h
  case inr.inr.inr.inr => exact startCompute_mem h
  all_goals
    obtain rfl := Host.Outcome.next.inj h
    rfl

theorem resolveRelease_mem {w : Which} {op : AluOp} {a : RegName} {v : Num64}
    (h : resolveRelease w op a v s = .next t) : t.mem = s.mem := by
  rcases resolveRelease_cases h with ⟨-, rfl⟩ | ⟨_, -, rfl⟩ <;> rfl

theorem computeRelease_mem {i : Nat} {w : Which} (h : computeRelease i w s = .next t) :
    t.mem = s.mem := by
  obtain ⟨_, _, -, -, ⟨-, rfl⟩ | ⟨-, -, rfl⟩⟩ := computeRelease_cases h <;> simp

/-- R43: no step writes memory. -/
theorem step_mem (h : step s = .next t) : t.mem = s.mem := by
  rcases step_cases h with ⟨-, rfl⟩ | ⟨_, _, _, -, -, -, he⟩ | ⟨_, _, -, -, rfl⟩ |
    ⟨_, _, _, _, _, -, he⟩ | ⟨_, _, -, he⟩
  · rfl
  · exact (exec_mem he).trans (s.fetched_mem _)
  · rfl
  · exact resolveRelease_mem he
  · exact computeRelease_mem he

end writes

/-! ### Loads -/

section loads

variable {s : State} {p : Text} {n : Nat}

theorem loadProgram_mem_invalid (h : s.Live) (hp : s.phase = .idle) (hn : p = [] ∨ n = 0) :
    (s.loadProgram p n).mem = [] := by
  rw [loadProgram_invalid h hp hn, State.loadClear_mem]

theorem loadProgram_mem_valid (h : s.Live) (hp : s.phase = .idle) (h0 : p ≠ []) (hn : n ≠ 0) :
    (s.loadProgram p n).mem = buildImage p := by
  rw [loadProgram_valid h hp h0 hn, State.startCell_mem]

end loads

end Sys2Proof.Machine

namespace Sys2Proof.Proofs

open Sys2Proof.Machine

/-- Settles O7: the pieces of a text, without the empty ones. -/
theorem programLinesSplitAtLF : Obligations.ProgramLinesSplitAtLF :=
  ⟨fun _ h => ⟨programLines_single h, programLines_append_lf h⟩, fun _ => decode_whitespace⟩

/-- Settles O35: no stage of a step writes memory, and a load is valid or invalid. -/
theorem memoryOnlyReplacedByLoads : Obligations.MemoryOnlyReplacedByLoads := by
  refine ⟨fun _ _ => step_mem, fun s p n hlive hp => ?_⟩
  split
  next hinvalid => exact loadProgram_mem_invalid hlive hp hinvalid
  next hvalid =>
    obtain ⟨htext, htime⟩ := not_or.1 hvalid
    exact loadProgram_mem_valid hlive hp htext htime

/-- Settles O45: the image of the text, and the worked example. -/
theorem loadBuildsImageInSourceOrder : Obligations.LoadBuildsImageInSourceOrder :=
  ⟨fun _ _ _ => loadProgram_mem_valid, by decide⟩

end Sys2Proof.Proofs
end

section
/-! PROOFS. The tokens of a text (R52) and its canonical form (R54): a whitespace character splits a
text into two that are read apart, and on a canonical line no piece between spaces is empty. -/

namespace Sys2Proof.Machine

/-! ### Pieces and tokens -/

/-- A separator parts a text into two that are split on their own, whatever they hold. -/
theorem pieces_append_cons_sep {sep : Char → Bool} {d : Char} (hd : sep d = true) (l r : Text) :
    pieces sep (l ++ d :: r) = pieces sep l ++ pieces sep r := by
  induction l with
  | nil => simp [pieces, hd]
  | cons c cs ih =>
    rw [List.cons_append, pieces, pieces, ih]
    obtain ⟨p, ps, hp⟩ := List.exists_cons_of_ne_nil (pieces_ne_nil sep cs)
    by_cases hc : sep c = true <;> simp [hc, hp]

/-- Only the characters of the text matter to how it is split. -/
theorem pieces_congr {sep sep' : Char → Bool} {l : Text} (h : ∀ c ∈ l, sep c = sep' c) :
    pieces sep l = pieces sep' l := by
  induction l with
  | nil => rfl
  | cons c cs ih =>
    obtain ⟨hc, hcs⟩ := List.forall_mem_cons.1 h
    rw [pieces, pieces, hc, ih hcs]

theorem isToken_iff {t : Text} : isToken t = true ↔ t ≠ [] ∧ ∀ c ∈ t, isWS c = false := by
  simp [isToken]

/-- R52: a whitespace character separates the tokens before it from those after it. -/
theorem tokens_append_cons_ws {d : Char} (hd : isWS d = true) (l r : Text) :
    tokens (l ++ d :: r) = tokens l ++ tokens r := by
  rw [tokens, pieces_append_cons_sep hd, List.filter_append, tokens, tokens]

/-- R52: leading whitespace yields no token. -/
theorem tokens_ws_append {w : Text} (h : ∀ c ∈ w, isWS c = true) (l : Text) :
    tokens (w ++ l) = tokens l := by
  induction w with
  | nil => rfl
  | cons c cs ih =>
    obtain ⟨hc, hcs⟩ := List.forall_mem_cons.1 h
    exact (tokens_append_cons_ws hc [] (cs ++ l)).trans (ih hcs)

theorem tokens_of_isToken {t : Text} (h : isToken t = true) : tokens t = [t] := by
  obtain ⟨hne, hws⟩ := isToken_iff.1 h
  simp [tokens, pieces_single isWS t hws, hne]

theorem isToken_of_mem_tokens {l t : Text} (h : t ∈ tokens l) : isToken t = true := by
  obtain ⟨hp, hne⟩ := List.mem_filter.1 h
  exact isToken_iff.2 ⟨by simpa using hne, pieces_no_sep isWS l t hp⟩

/-! ### Canonical lines -/

/-- R54, condition by condition: the two ends, the whitespace in use, and no two spaces together. -/
theorem canonical_iff {l : Text} : canonical l = true ↔
    (∀ c ∈ l.head?, isWS c = false) ∧ (∀ c ∈ l.getLast?, isWS c = false) ∧
      (∀ c ∈ l, isWS c = true → c = ' ') ∧ noDoubleSpace l = true := by
  simp [canonical, and_assoc, Option.any_eq_false, imp_iff_not_or]

theorem noDoubleSpace_cons (c : Char) (l : Text) :
    noDoubleSpace (c :: l) = (!(c == ' ' && l.head? == some ' ') && noDoubleSpace l) := by
  cases l <;> simp [noDoubleSpace]

theorem ne_space_of_not_ws {c : Char} (h : isWS c = false) : c ≠ ' ' := by
  rintro rfl
  cases h

theorem noDoubleSpace_append {t : Text} (h : ∀ c ∈ t, isWS c = false) (l : Text) :
    noDoubleSpace (t ++ l) = noDoubleSpace l := by
  induction t with
  | nil => rfl
  | cons c cs ih =>
    obtain ⟨hc, hcs⟩ := List.forall_mem_cons.1 h
    simp [noDoubleSpace_cons, ne_space_of_not_ws hc, ih hcs]

theorem canonical_of_isToken {t : Text} (h : isToken t = true) : canonical t = true := by
  obtain ⟨-, hws⟩ := isToken_iff.1 h
  refine canonical_iff.2 ⟨fun c hc => hws c (List.mem_of_mem_head? hc),
    fun c hc => hws c (List.mem_of_mem_getLast? hc), fun c hc hw => ?_, ?_⟩
  · rw [hws c hc] at hw
    cases hw
  · rw [← List.append_nil t, noDoubleSpace_append hws]
    rfl

/-- A token, one space and a line that is canonical and not empty are canonical together. -/
theorem canonical_token_space {t r : Text} (ht : isToken t = true) (hr : canonical r = true)
    (hne : r ≠ []) : canonical (t ++ ' ' :: r) = true := by
  obtain ⟨htne, hws⟩ := isToken_iff.1 ht
  obtain ⟨hhead, hlast, hspace, hdouble⟩ := canonical_iff.1 hr
  refine canonical_iff.2 ⟨fun c hc => ?_, fun c hc => ?_, fun c hc hw => ?_, ?_⟩
  · rw [List.head?_append_of_ne_nil _ htne] at hc
    exact hws c (List.mem_of_mem_head? hc)
  · rw [List.getLast?_append_cons, List.getLast?_cons_of_ne_nil hne] at hc
    exact hlast c hc
  · rcases List.mem_append.1 hc with hc | hc
    · rw [hws c hc] at hw
      cases hw
    · rcases List.mem_cons.1 hc with rfl | hc
      · rfl
      · exact hspace c hc hw
  · have hfirst : r.head? ≠ some ' ' := fun h => ne_space_of_not_ws (hhead ' ' h) rfl
    simp [noDoubleSpace_append hws, noDoubleSpace_cons, hfirst, hdouble]

/-- A text that does not begin with a separator has a first piece that is not empty. -/
theorem pieces_cons_of_not_sep {sep : Char → Bool} {c : Char} (hc : sep c = false) (cs : Text) :
    ∃ p, pieces sep (c :: cs) = (c :: p) :: (pieces sep cs).tail := by
  obtain ⟨p, ps, hp⟩ := List.exists_cons_of_ne_nil (pieces_ne_nil sep cs)
  exact ⟨p, by simp [pieces, hc, hp]⟩

/-- Only the first piece between spaces can be empty where no space ends the text and no two stand
together. -/
theorem nil_notMem_tail_pieces {l : Text} (hlast : ∀ c ∈ l.getLast?, c ≠ ' ')
    (hdouble : noDoubleSpace l = true) : [] ∉ (pieces (· == ' ') l).tail := by
  induction l with
  | nil => simp [pieces]
  | cons c cs ih =>
    rw [noDoubleSpace_cons, Bool.and_eq_true] at hdouble
    obtain ⟨hpair, hcs⟩ := hdouble
    have htail : [] ∉ (pieces (· == ' ') cs).tail :=
      ih (fun d hd => hlast d (List.mem_getLast?_cons hd)) hcs
    by_cases hc : c = ' '
    · subst hc
      cases cs with
      | nil => exact absurd rfl (hlast ' ' rfl)
      | cons d ds =>
        have hd : d ≠ ' ' := by simpa using hpair
        obtain ⟨p, hp⟩ := pieces_cons_of_not_sep (sep := (· == ' ')) (by simpa using hd) ds
        rw [pieces]
        simpa [hp] using htail
    · obtain ⟨p, hp⟩ := pieces_cons_of_not_sep (sep := (· == ' ')) (by simpa using hc) cs
      simpa [hp] using htail

/-- R54: so on a canonical line no piece between spaces is empty. -/
theorem nil_notMem_pieces_of_canonical {l : Text} (hne : l ≠ []) (h : canonical l = true) :
    [] ∉ pieces (· == ' ') l := by
  obtain ⟨hhead, hlast, -, hdouble⟩ := canonical_iff.1 h
  have htail := nil_notMem_tail_pieces (fun c hc => ne_space_of_not_ws (hlast c hc)) hdouble
  obtain ⟨c, cs, rfl⟩ := List.exists_cons_of_ne_nil hne
  obtain ⟨p, hp⟩ := pieces_cons_of_not_sep (sep := (· == ' '))
    (by simpa using ne_space_of_not_ws (hhead c rfl)) cs
  rw [hp] at htail ⊢
  simpa using htail

/-- R54: a canonical line is split at the same characters by R52 and at U+0020. -/
theorem pieces_space_eq_of_canonical {l : Text} (h : canonical l = true) :
    pieces (· == ' ') l = pieces isWS l := by
  obtain ⟨-, -, hspace, -⟩ := canonical_iff.1 h
  refine pieces_congr fun c hc => ?_
  by_cases hw : isWS c = true
  · rw [hspace c hc hw]
    rfl
  · rw [Bool.not_eq_true] at hw
    simp [hw, ne_space_of_not_ws hw]

end Sys2Proof.Machine

namespace Sys2Proof.Proofs

open Sys2Proof.Machine

/-- Settles O4: a run of whitespace is one separator and more leading whitespace. -/
theorem tokensAreMaximalRuns : Obligations.TokensAreMaximalRuns := by
  refine ⟨fun l₁ w l₂ hne hw => ?_, fun _ => tokens_of_isToken, fun _ _ => isToken_of_mem_tokens⟩
  obtain ⟨d, w, rfl⟩ := List.exists_cons_of_ne_nil hne
  obtain ⟨hd, hw⟩ := List.forall_mem_cons.1 hw
  rw [List.append_assoc, List.cons_append, tokens_append_cons_ws hd, tokens_ws_append hw]

/-- Settles O5: the pieces are those of R52, and none of them is empty. -/
theorem canonicalLinesSplitAtSpaces : Obligations.CanonicalLinesSplitAtSpaces := by
  intro l hne h
  have hfull := nil_notMem_pieces_of_canonical hne h
  rw [pieces_space_eq_of_canonical h] at hfull ⊢
  refine (List.filter_eq_self.2 fun p hp => ?_).symm
  have : p ≠ [] := fun h => hfull (h ▸ hp)
  simpa using this

end Sys2Proof.Proofs
end

section
/-! PROOFS. The decode stage (R72) reads back what the encoder writes (R51): the line of an
instruction is canonical and its tokens are the instruction's fields. -/

namespace Sys2Proof

open Machine

/-! ### The line of a list of tokens -/

theorem tokens_joinTokens {ts : List Token} (h : ∀ t ∈ ts, isToken t = true) :
    tokens (joinTokens ts) = ts := by
  induction ts with
  | nil => rfl
  | cons t us ih =>
    obtain ⟨ht, hus⟩ := List.forall_mem_cons.1 h
    cases us with
    | nil => exact tokens_of_isToken ht
    | cons u us =>
      rw [joinTokens, tokens_append_cons_ws rfl, tokens_of_isToken ht, ih hus,
        List.singleton_append]

theorem canonical_joinTokens {ts : List Token} (hne : ts ≠ []) (h : ∀ t ∈ ts, isToken t = true) :
    canonical (joinTokens ts) = true := by
  induction ts with
  | nil => exact absurd rfl hne
  | cons t us ih =>
    obtain ⟨ht, hus⟩ := List.forall_mem_cons.1 h
    cases us with
    | nil => exact canonical_of_isToken ht
    | cons u us =>
      have hcell := Laws.EncodesCell.joinTokens_cellText (u :: us) hus
      refine canonical_token_space ht (ih (List.cons_ne_nil _ _) hus) ?_
      intro hnil
      rw [hnil] at hcell
      cases hcell

/-! ### The fields of an instruction -/

theorem isToken_of_mem_three {op a b : Token} (hop : isToken op = true) (ha : isToken a = true)
    (hb : isToken b = true) : ∀ t ∈ [op, a, b], isToken t = true := by
  simp [hop, ha, hb]

theorem isToken_of_mem_fields {i : Instr} (h : i.wf = true) : ∀ t ∈ i.fields, isToken t = true := by
  cases i with
  | mov a b | add a b | sub a b | mul a b | div a b =>
    obtain ⟨ha, hb⟩ := Bool.and_eq_true_iff.1 h
    exact isToken_of_mem_three (by decide) ha hb
  | decodeSkip ts =>
    obtain ⟨-, hts⟩ := Bool.and_eq_true_iff.1 h
    exact List.all_eq_true.1 hts
  | unknownOpcode op a b =>
    simp only [Instr.wf, Bool.and_eq_true] at h
    obtain ⟨⟨⟨hop, ha⟩, hb⟩, -⟩ := h
    exact isToken_of_mem_three hop ha hb

/-- Only the skip of no tokens is written without any. -/
theorem fields_eq_nil_iff {i : Instr} : i.fields = [] ↔ i = .decodeSkip [] := by
  cases i <;> simp [Instr.fields]

/-! ### The opcode map -/

/-- R73: fewer than three tokens are a skip. -/
theorem decodeTokens_short {ts : List Token} (h : ts.length < 3) :
    decodeTokens ts = .decodeSkip ts := by
  match ts with
  | [] | [_] | [_, _] => rfl
  | _ :: _ :: _ :: _ => exact absurd h (by simp)

/-- R75: a first token that is none of the five opcodes. -/
theorem decodeTokens_unknown {op : Token} (h : op ∉ opcodeTokens) (a b : Token)
    (rest : List Token) : decodeTokens (op :: a :: b :: rest) = .unknownOpcode op a b := by
  simp only [opcodeTokens, List.mem_cons, List.not_mem_nil, or_false, not_or] at h
  obtain ⟨hmov, hadd, hsub, hmul, hdiv⟩ := h
  simp only [decodeTokens, hmov, hadd, hsub, hmul, hdiv, if_false]

theorem decodeTokens_fields {i : Instr} (h : i.wf = true) : decodeTokens i.fields = i := by
  cases i with
  | mov a b | add a b | sub a b | mul a b | div a b => rfl
  | decodeSkip ts =>
    obtain ⟨hlen, -⟩ := Bool.and_eq_true_iff.1 h
    exact decodeTokens_short (of_decide_eq_true hlen)
  | unknownOpcode op a b =>
    obtain ⟨-, hop⟩ := Bool.and_eq_true_iff.1 h
    exact decodeTokens_unknown (by simpa using hop) a b []

/-! ### The decode stage -/

/-- R52: without strict tokenizing the tokens decide, of every line. -/
theorem decode_false (l : Text) : decode false l = .ok (decodeTokens (tokens l)) := rfl

/-- R55: strict tokenizing refuses the lines that are not canonical and changes no other. -/
theorem decode_true (l : Text) :
    decode true l = if canonical l then decode false l else .error .nonCanonicalLine := by
  cases h : canonical l <;> simp [decode, h]

theorem decode_false_encode {i : Instr} (h : i.wf = true) : decode false (encode i) = .ok i := by
  rw [decode_false, encode, tokens_joinTokens (isToken_of_mem_fields h), decodeTokens_fields h]

theorem decode_true_encode {i : Instr} (h : i.wf = true) (hi : i ≠ .decodeSkip []) :
    decode true (encode i) = .ok i := by
  have hline : canonical (encode i) = true :=
    canonical_joinTokens (mt fields_eq_nil_iff.1 hi) (isToken_of_mem_fields h)
  rw [decode_true, if_pos hline, decode_false_encode h]

end Sys2Proof

namespace Sys2Proof.Proofs

open Sys2Proof.Machine

/-- Settles O2: the tokens of the encoded line are the instruction's fields, and the line is
canonical if it has any. -/
theorem encodedInstructionsDecodeBack : Obligations.EncodedInstructionsDecodeBack :=
  fun _ h => ⟨decode_false_encode h, decode_true_encode h⟩

/-- Settles O3: by the length of the token list, then by its first token. -/
theorem decodeFollowsOpcodeMap : Obligations.DecodeFollowsOpcodeMap := by
  refine fun l => ⟨fun h => ?_, fun op a b rest h => ?_, decode_true l⟩
  · rw [decode_false, decodeTokens_short h]
  · rw [decode_false, h]
    refine ⟨?_, ?_, ?_, ?_, ?_, fun hop => by rw [decodeTokens_unknown hop]⟩ <;>
    · rintro rfl
      rfl

/-- Settles O1: each line is evaluated. -/
theorem tableRowsDecode : Obligations.TableRowsDecode := by
  unfold Obligations.TableRowsDecode
  decide

/-- Settles O31: the decode stage answers the refusal, or the instruction of the line's tokens. -/
theorem strictTokenizingRefuses : Obligations.StrictTokenizingRefuses := by
  refine fun s i l hlive hp hl => ⟨fun hstrict hcanon => ?_, fun hstrict => ?_⟩
  · have hd : decode s.params.tokenizeStrict l = .error .nonCanonicalLine := by
      rw [hstrict, decode_true, hcanon, if_neg Bool.false_ne_true]
    exact step_fetch_refused hlive hp hl hd
  · have hd : decode s.params.tokenizeStrict l = .ok (decodeTokens (tokens l)) := by
      rw [hstrict, decode_false]
    exact step_fetch hlive hp hl hd

end Sys2Proof.Proofs
end

section
/-! PROOFS. The class of operand-two (R59): `parseInt` answers exactly on the decimal grammar, an
optional sign and one or more digits, and the value decides the class. -/

namespace Sys2Proof.Machine

/-! ### The decimal grammar -/

theorem parseDigits_of_digits {ds : Text} (hne : ds ≠ []) (h : ∀ c ∈ ds, isDigit c = true) :
    parseDigits ds = some (digitsValue ds) := by
  simpa [parseDigits, hne] using h

theorem digits_of_parseDigits {ds : Text} {n : Nat} (h : parseDigits ds = some n) :
    ds ≠ [] ∧ ∀ c ∈ ds, isDigit c = true := by
  unfold parseDigits at h
  split at h
  next hds => simpa using hds
  next => cases h

/-- A token that begins with a digit has no sign to take off. -/
theorem parseInt_of_digit {c : Char} {cs : Text} {n : Nat} (h : isDigit c = true)
    (hn : parseDigits (c :: cs) = some n) : parseInt (c :: cs) = some (n : Int) := by
  unfold parseInt
  split
  next heq => obtain ⟨rfl, -⟩ := List.cons.inj heq; cases h
  next heq => obtain ⟨rfl, -⟩ := List.cons.inj heq; cases h
  next => rw [hn]; rfl

/-- R59, R60: a text of the grammar has its signed decimal value. -/
theorem parseInt_of_grammar {sign ds : Text} (hsign : sign ∈ [[], ['+'], ['-']]) (hne : ds ≠ [])
    (h : ∀ c ∈ ds, isDigit c = true) :
    parseInt (sign ++ ds) =
      some (if sign = ['-'] then -(digitsValue ds : Int) else digitsValue ds) := by
  have hvalue := parseDigits_of_digits hne h
  simp only [List.mem_cons, List.not_mem_nil, or_false] at hsign
  rcases hsign with rfl | rfl | rfl
  · obtain ⟨c, cs, rfl⟩ := List.exists_cons_of_ne_nil hne
    exact parseInt_of_digit (h c List.mem_cons_self) hvalue
  · simp [parseInt, hvalue]
  · simp [parseInt, hvalue]

/-- R59: and nothing else has a value. -/
theorem grammar_of_parseInt {b : Token} {v : Int} (h : parseInt b = some v) :
    ∃ sign ∈ [[], ['+'], ['-']], ∃ ds : Text,
      b = sign ++ ds ∧ ds ≠ [] ∧ ∀ c ∈ ds, isDigit c = true := by
  unfold parseInt at h
  split at h <;> obtain ⟨_, h, -⟩ := Option.map_eq_some_iff.1 h <;>
    obtain ⟨_, hn, -⟩ := Option.bind_eq_some_iff.1 h
  · exact ⟨['+'], by simp, _, rfl, digits_of_parseDigits hn⟩
  · exact ⟨['-'], by simp, _, rfl, digits_of_parseDigits hn⟩
  · exact ⟨[], by simp, _, rfl, digits_of_parseDigits hn⟩

/-- A token without a digit has no value. -/
theorem parseInt_of_no_digit {b : Token} (h : ∀ c ∈ b, isDigit c = false) : parseInt b = none := by
  refine Option.eq_none_iff_forall_ne_some.2 fun v hv => ?_
  obtain ⟨sign, -, ds, rfl, hne, hds⟩ := grammar_of_parseInt hv
  obtain ⟨c, hc⟩ := List.exists_mem_of_ne_nil ds hne
  exact absurd (hds c hc) (by simp [h c (List.mem_append_right sign hc)])

/-- A token outside the grammar has no value. -/
theorem parseInt_of_not_grammar {b : Token}
    (h : ∀ sign ∈ [[], ['+'], ['-']], ∀ ds : Text, b = sign ++ ds → ∃ c ∈ ds, isDigit c = false) :
    parseInt b = none := by
  refine Option.eq_none_iff_forall_ne_some.2 fun v hv => ?_
  obtain ⟨sign, hsign, ds, hb, -, hds⟩ := grammar_of_parseInt hv
  obtain ⟨c, hc, hnot⟩ := h sign hsign ds hb
  exact absurd (hds c hc) (by simp [hnot])

/-! ### The class of a value, and of a token without one -/

theorem classify_of_value {b : Token} {v : Int} (h : parseInt b = some v) :
    classify b = if v = 0 then .zero else if v.natAbs ≤ litMax then .lit v else .unsettled := by
  unfold classify
  rw [h]

theorem classify_of_no_value {b : Token} (h : parseInt b = none) :
    classify b = if isAddr b || infinitySpellings.contains b then .unsettled else .nonNumeric := by
  unfold classify
  rw [h]

theorem isAddr_iff {b : Token} : isAddr b = true ↔ ∃ c ∈ b, isDigit c = true := by
  simp [isAddr]

/-- R59: the class of a text of the grammar, by the size of its value. -/
theorem classify_of_grammar {sign ds : Text} (hsign : sign ∈ [[], ['+'], ['-']]) (hne : ds ≠ [])
    (h : ∀ c ∈ ds, isDigit c = true) :
    classify (sign ++ ds) =
      if digitsValue ds = 0 then .zero
      else if digitsValue ds ≤ 2 ^ 53 then
        .lit (if sign = ['-'] then -(digitsValue ds : Int) else digitsValue ds)
      else .unsettled := by
  rw [classify_of_value (parseInt_of_grammar hsign hne h), litMax]
  by_cases hneg : sign = ['-'] <;> simp [hneg]

theorem classify_of_no_digit {b : Token} (h : ∀ c ∈ b, isDigit c = false)
    (hinf : b ∉ infinitySpellings) : classify b = .nonNumeric := by
  have haddr : isAddr b = false := by simpa [isAddr] using h
  simp [classify_of_no_value (parseInt_of_no_digit h), haddr, hinf]

theorem classify_of_not_grammar {b : Token} (hdigit : ∃ c ∈ b, isDigit c = true)
    (h : ∀ sign ∈ [[], ['+'], ['-']], ∀ ds : Text, b = sign ++ ds → ∃ c ∈ ds, isDigit c = false) :
    classify b = .unsettled := by
  simp [classify_of_no_value (parseInt_of_not_grammar h), isAddr_iff.2 hdigit]

end Sys2Proof.Machine

namespace Sys2Proof.Proofs

open Sys2Proof.Machine

/-- Settles O6: by the grammar where it applies, else by whether the token holds a digit. -/
theorem literalClassesByGrammar : Obligations.LiteralClassesByGrammar :=
  ⟨fun _ hne h _ hsign => classify_of_grammar hsign hne h, fun _ => classify_of_no_digit,
    by decide, fun _ => classify_of_not_grammar⟩

end Sys2Proof.Proofs
end

section
/-! PROOFS. Where a step ends, said once (R80): at a mark, at a hold of the ALU path or at the start of
the next cell; so the sequencer goes from each cell to the next and the bus is busy in a hold alone
(R20, R79, R81). -/

namespace Sys2Proof.Machine

/-! ### Where a step ends -/

/-- A hold of the ALU path, as opposed to a fetch hold or `Idle`. -/
def Phase.isAluHold : Phase → Bool
  | .resolveHold .. | .computeHold .. => true
  | .idle | .fetchHold _ => false

/-- `t` is `s` with a mark set: bus and sequencer index are as they were (R112). -/
structure State.MarkedFrom (s t : State) : Prop where
  marked : ¬ t.Live
  busActive : t.busActive = s.busActive
  busMessage : t.busMessage = s.busMessage
  seq : t.seq = s.seq

/-- `t` is at a hold of the ALU path that the engine goes to from `s` within a cell. -/
structure State.HoldsFrom (s t : State) : Prop where
  live : s.Live → t.Live
  busActive : t.busActive = true
  phase : t.phase.isAluHold = true
  seq : t.seq = s.seq

section ends

variable {s t : State}

theorem State.Live.of_eq (h : s.Live) (hf : t.fault = s.fault) (hr : t.refused = s.refused) :
    t.Live := ⟨hf.trans h.1, hr.trans h.2⟩

theorem State.markedFrom_raiseFault (s : State) (k : FaultKind) : s.MarkedFrom (s.raiseFault k) :=
  ⟨s.raiseFault_not_live k, rfl, rfl, rfl⟩

theorem State.markedFrom_refuse (s : State) (k : RefusalKind) : s.MarkedFrom (s.refuse k) :=
  ⟨s.refuse_not_live k, rfl, rfl, rfl⟩

theorem startCompute_ends {w : Which} (h : startCompute w s = .next t) :
    s.MarkedFrom t ∨ s.HoldsFrom t := by
  rcases startCompute_cases h with ⟨-, rfl⟩ | ⟨_, _, _, _, -, -, -, -, rfl⟩
  · exact .inl (s.markedFrom_raiseFault _)
  · exact .inr ⟨id, rfl, rfl, rfl⟩

/-- R80: a meaning ends at a mark or at a hold of the ALU path. -/
theorem exec_ends {i : Instr} (h : exec i s = .next t) : s.MarkedFrom t ∨ s.HoldsFrom t := by
  rcases exec_cases i s with ⟨_, _, _, -, -, -, he⟩ | he | he | ⟨_, _, _, _, -, -, he⟩ | he <;>
    rw [he] at h
  case inr.inr.inr.inr => exact startCompute_ends h
  all_goals obtain rfl := Host.Outcome.next.inj h
  case inr.inr.inl => exact .inl (s.markedFrom_refuse _)
  all_goals exact .inr ⟨id, rfl, rfl, rfl⟩

theorem resolveRelease_ends {w : Which} {op : AluOp} {a : RegName} {v : Num64}
    (h : resolveRelease w op a v s = .next t) :
    s.busRelease.MarkedFrom t ∨ s.busRelease.HoldsFrom t := by
  rcases resolveRelease_cases h with ⟨-, rfl⟩ | ⟨x, -, rfl⟩
  · exact .inl (s.busRelease.markedFrom_raiseFault _)
  · exact .inr ⟨id, rfl, rfl, rfl⟩

/-- R80: where a step ends: in `Idle` it stays; within a cell it ends at a mark with the bus
released or at a hold of the ALU path; and the write-back of `IncrementCP` starts the next cell. -/
theorem step_ends (h : step s = .next t) :
    (s.phase = .idle ∧ t = s) ∨
      s.busRelease.MarkedFrom t ∨
      s.busRelease.HoldsFrom t ∨
      ∃ i n r, s.phase = .computeHold i .inc ∧
        t = (s.busRelease.writeTarget n r).startCell (i + 1) := by
  rcases step_cases h with hidle | ⟨_, l, _, -, -, -, he⟩ | ⟨_, l, -, -, rfl⟩ |
    ⟨_, _, _, _, _, -, he⟩ | ⟨i, w, hp, he⟩
  · exact .inl hidle
  · rcases exec_ends he with ⟨hm, ha, hb, hs⟩ | ⟨hl, ha, hp, hs⟩
    · exact .inr (.inl ⟨hm, ha, hb, hs⟩)
    · exact .inr (.inr (.inl ⟨hl, ha, hp, hs⟩))
  · exact .inr (.inl ⟨State.refuse_not_live _ _, rfl, rfl, rfl⟩)
  · rcases resolveRelease_ends he with hm | hh
    · exact .inr (.inl hm)
    · exact .inr (.inr (.inl hh))
  · obtain ⟨n, r, -, -, ⟨-, rfl⟩ | ⟨rfl, -, rfl⟩⟩ := computeRelease_cases he
    · exact .inr (.inr (.inl ⟨(·.of_eq (by simp) (by simp)), rfl, rfl, by simp⟩))
    · exact .inr (.inr (.inr ⟨i, n, r, hp, rfl⟩))

/-- R79: within a cell the sequencer index stays. -/
theorem exec_seq {i : Instr} (h : exec i s = .next t) : t.seq = s.seq :=
  (exec_ends h).elim State.MarkedFrom.seq State.HoldsFrom.seq

/-- R79: only the write-back of `IncrementCP` moves the sequencer index. -/
theorem step_seq (h : step s = .next t) (hne : t.seq ≠ s.seq) :
    ∃ i, s.phase = .computeHold i .inc ∧ t.seq = i + 1 := by
  rcases step_ends h with ⟨-, rfl⟩ | hm | hh | ⟨i, n, r, hp, rfl⟩
  · exact absurd rfl hne
  · exact absurd hm.seq hne
  · exact absurd hh.seq hne
  · exact ⟨i, hp, State.startCell_seq _ _⟩

end ends

/-! ### The start of a cell -/

theorem State.startCell_phase (s : State) (i : Nat) :
    (s.startCell i).phase = if i < s.mem.length then .fetchHold i else .idle := by
  cases hl : s.memRead i with
  | none =>
    have hi : ¬ i < s.mem.length := by simp [← s.memRead_some_iff, hl]
    rw [State.startCell_past s i hl, if_neg hi]
  | some l =>
    have hi : i < s.mem.length := (s.memRead_some_iff i).1 ⟨l, hl⟩
    rw [State.startCell_fetch s i hl, if_pos hi]

/-- R80: a cell starts with the bus busy. -/
theorem State.startCell_busActive {s : State} {i : Nat} (h : (s.startCell i).phase ≠ .idle) :
    (s.startCell i).busActive = true := by
  cases hl : s.memRead i with
  | none => exact absurd (by rw [State.startCell_past s i hl]) h
  | some l => rw [State.startCell_fetch s i hl]

theorem State.eq_of_startCell_fetchHold {s : State} {i j : Nat}
    (h : (s.startCell i).phase = .fetchHold j) : j = i := by
  rw [State.startCell_phase] at h
  split at h
  · exact (Phase.fetchHold.inj h).symm
  · cases h

/-! ### What the invariant says of the phase -/

theorem State.Inv.bus_of_idle {s : State} (h : s.Inv) (hlive : s.Live) (hp : s.phase = .idle) :
    s.busActive = false ∧ s.busMessage = [] := by
  have hok := h.2 hlive
  rwa [State.PhaseOk, hp] at hok

/-- R81: `Idle` past the last cell is the end of a run. -/
theorem State.Inv.final {s : State} (h : s.Inv) (hlive : s.Live) (hp : s.phase = .idle)
    (hseq : s.seq = s.mem.length) : s.Final :=
  ⟨hlive, hp, hseq, h.bus_of_idle hlive hp⟩

/-- R25: the phase names the cell that `seq` names. -/
theorem State.Inv.computeHold_index {s : State} {i : Nat} {w : Which} (h : s.Inv) (hlive : s.Live)
    (hp : s.phase = .computeHold i w) : i = s.seq := by
  have hok := h.2 hlive
  rw [State.PhaseOk, hp] at hok
  obtain ⟨-, -, hi, -⟩ := hok
  exact hi

/-- R77, R80: the write-back of `IncrementCP` adds 1 to `CP` and starts the next cell. -/
theorem State.Inv.step_increment {s : State} {i : Nat} (h : s.Inv) (hlive : s.Live)
    (hp : s.phase = .computeHold i .inc) :
    step s = .next ((s.busRelease.writeTarget cpName (alu .add s.cp.value (ofInt 1))).startCell
      (s.seq + 1)) := by
  obtain ⟨hwf, hphase⟩ := h
  have hok := hphase hlive
  rw [State.PhaseOk, hp] at hok
  obtain ⟨-, -, rfl, -, hslot⟩ := hok
  obtain ⟨-, -, -, hr, ht⟩ := hslot rfl
  rw [step_compute hlive hp, computeRelease_inc ht hr (hwf.seqLt (by simp [hp]))]

end Sys2Proof.Machine

namespace Sys2Proof.Proofs

open Sys2Proof.Machine

/-- Settles O34: a step either stays within its cell or is the write-back of `IncrementCP`. -/
theorem noControlTransfer : Obligations.NoControlTransfer := by
  refine ⟨fun _ _ _ => exec_seq, fun _ _ => step_seq, fun s t i hinv hs hp => ?_,
    fun s t j hinv hs hlive hp => ?_⟩
  · obtain rfl := Host.Outcome.next.inj ((hinv.step_increment (step_live hs) hp).symm.trans hs)
    exact ⟨State.startCell_seq _ _, State.startCell_phase _ _⟩
  · rcases step_ends hs with ⟨hidle, rfl⟩ | hm | hh | ⟨i, n, r, hinc, rfl⟩
    · rw [hidle] at hp
      cases hp
    · exact absurd hlive hm.marked
    · have hhold := hh.phase
      rw [hp] at hhold
      cases hhold
    · obtain rfl := State.eq_of_startCell_fetchHold hp
      obtain rfl := hinv.computeHold_index (step_live hs) hinc
      exact ⟨rfl, State.startCell_seq _ _⟩

/-- Settles O37: past the last cell the write-back of `IncrementCP` leaves the engine in `Idle`. -/
theorem lastCellEndsTheRun : Obligations.LastCellEndsTheRun := by
  intro s i hinv hlive hp hlast
  obtain rfl := hinv.computeHold_index hlive hp
  have hs := hinv.step_increment hlive hp
  refine ⟨_, hs, (step_inv hinv hs).final (hlive.of_eq (by simp) (by simp)) ?_ (by simp [hlast])⟩
  simp [State.startCell_phase, hlast]

/-- Settles O38: a step ends with the bus released where it sets a mark, and with it asserted where
it goes to a hold. -/
theorem busMessagesNameAndClear : Obligations.BusMessagesNameAndClear := by
  refine ⟨fun n => ⟨_, _, rfl⟩, fun s t hinv hs ht => ?_, fun s t hs hp hlive hnotIdle => ?_⟩
  · by_cases hlive : t.Live
    · exact (step_inv hinv hs).bus_of_idle hlive (ht.resolve_left (not_not_intro hlive))
    · have hstart := step_live hs
      rcases step_ends hs with ⟨-, rfl⟩ | hm | hh | ⟨i, n, r, -, rfl⟩
      · exact absurd hstart hlive
      · exact ⟨hm.busActive, hm.busMessage⟩
      · exact absurd (hh.live (hstart.of_eq rfl rfl)) hlive
      · exact absurd (hstart.of_eq (by simp) (by simp)) hlive
  · rcases step_ends hs with ⟨hidle, -⟩ | hm | hh | ⟨i, n, r, -, rfl⟩
    · exact absurd hidle hp
    · exact absurd hlive hm.marked
    · exact hh.busActive
    · exact State.startCell_busActive hnotIdle

end Sys2Proof.Proofs
end

section
/-! PROOFS. The two steps of an ALU dispatch from its resolve hold (R91 to R96), of `IncrementCP` among
them (R77), and the lines with no other action (R73, R75). -/

namespace Sys2Proof.Machine

/-! ### The holds of an ALU dispatch -/

section dispatch

variable {s : State}

theorem State.Live.atResolve (h : s.Live) (w : Which) (op : AluOp) (a : RegName) (b : Token)
    (v : Int) : (s.atResolve w op a b v).Live := h.of_eq rfl rfl

theorem State.Live.atCompute (h : s.Live) (w : Which) (op : AluOp) (x y : Num64) (t : RegName) :
    (s.atCompute w op x y t).Live := h.of_eq rfl rfl

/-- R91: from its resolve hold a dispatch stages the operand it reads. -/
theorem step_atResolve (h : s.Live) (w : Which) (op : AluOp) {a : RegName} (b : Token) (v : Int)
    {x : Num64} (hx : s.readOperand a = some x) :
    step (s.atResolve w op a b v) =
      .next ((s.stage op x (ofInt v) a).atCompute w op x (ofInt v) a) := by
  rw [step_resolve (h.atResolve w op a b v) (s.atResolve_phase w op a b v)]
  exact resolveRelease_some (s := s.atResolve w op a b v) w op (ofInt v) hx

/-- R91: a resolve hold on a register that nothing has written ends in the mark. -/
theorem step_atResolve_uninitialized (h : s.Live) (w : Which) (op : AluOp) {a : RegName} (b : Token)
    (v : Int) (hx : s.readOperand a = none) :
    step (s.atResolve w op a b v) =
      .next ((s.atResolve w op a b v).busRelease.raiseFault .uninitializedRead) := by
  rw [step_resolve (h.atResolve w op a b v) (s.atResolve_phase w op a b v)]
  exact resolveRelease_none (s := s.atResolve w op a b v) w op (ofInt v) hx

/-- R95: `pendingResult <- r`. -/
def State.withResult (s : State) (r : Num64) : State := { s with pendingResult := some r }

/-- R95, R96: the slot `(op, x, y)` computed and written to its target `t`, the bus released. -/
def State.computed (s : State) (op : AluOp) (x y : Num64) (t : RegName) : State :=
  (s.busRelease.withResult (alu op x y)).writeTarget t (alu op x y)

@[simp] theorem State.computed_mem (op : AluOp) (x y : Num64) (t : RegName) :
    (s.computed op x y t).mem = s.mem := State.writeTarget_mem _ _ _

@[simp] theorem State.computed_seq (op : AluOp) (x y : Num64) (t : RegName) :
    (s.computed op x y t).seq = s.seq := State.writeTarget_seq _ _ _

@[simp] theorem State.computed_phase (op : AluOp) (x y : Num64) (t : RegName) :
    (s.computed op x y t).phase = s.phase := State.writeTarget_phase _ _ _

theorem State.Live.computed (h : s.Live) (op : AluOp) (x y : Num64) (t : RegName) :
    (s.computed op x y t).Live :=
  h.of_eq (State.writeTarget_fault _ _ _) (State.writeTarget_refused _ _ _)

/-- `s` with the engine standing elsewhere: the procedures of R67 to R96 neither read nor write the
phase, the engine does. -/
def State.setPhase (s : State) (p : Phase) : State := { s with phase := p }

theorem State.writeTarget_setPhase (s : State) (p : Phase) (n : RegName) (r : Num64) :
    (s.setPhase p).writeTarget n r = (s.writeTarget n r).setPhase p := by
  unfold State.writeTarget
  split <;> rfl

theorem State.computed_setPhase (s : State) (p : Phase) (op : AluOp) (x y : Num64) (t : RegName) :
    (s.setPhase p).computed op x y t = (s.computed op x y t).setPhase p :=
  State.writeTarget_setPhase (s.busRelease.withResult (alu op x y)) p t _

/-- R80: the start of a cell writes `seq` and the phase, whatever they were. -/
theorem State.startCell_overwrites (s : State) (p : Phase) (j i : Nat) :
    ({ s with phase := p, seq := j } : State).startCell i = s.startCell i := by
  cases hl : s.memRead i with
  | none =>
    rw [State.startCell_past s i hl]
    exact State.startCell_past { s with phase := p, seq := j } i hl
  | some l =>
    rw [State.startCell_fetch s i hl]
    exact State.startCell_fetch { s with phase := p, seq := j } i hl

theorem State.startCell_setPhase (s : State) (p : Phase) (i : Nat) :
    (s.setPhase p).startCell i = s.startCell i := s.startCell_overwrites p s.seq i

/-- R80: a resolve hold names the cell that the phase before it named. -/
theorem State.atResolve_setPhase {s : State} {p : Phase} (h : p.cellIndex.getD s.seq = s.cell)
    (w : Which) (op : AluOp) (a : RegName) (b : Token) (v : Int) :
    (s.setPhase p).atResolve w op a b v = s.atResolve w op a b v := by
  have hcell : (s.setPhase p).cell = s.cell := h
  rw [State.atResolve, hcell]
  rfl

/-- R96: what the end of a compute hold writes back. -/
theorem State.atCompute_writeback (s : State) (w : Which) (op : AluOp) (x y : Num64) (t : RegName) :
    (s.atCompute w op x y t).busRelease.writeTarget t (alu op x y) =
      (s.computed op x y t).setPhase (.computeHold s.cell w) :=
  State.writeTarget_setPhase (s.busRelease.withResult (alu op x y)) (.computeHold s.cell w) t _

/-- R80: the instruction's own write-back is followed by `IncrementCP`. -/
theorem step_atCompute_main (h : s.Live) (op : AluOp) (x y : Num64) {t : RegName}
    (ht : s.currentTarget = some t) :
    step (s.atCompute .main op x y t) =
      .next ((s.computed op x y t).atResolve .inc .add cpName oneToken 1) := by
  have hcell : (s.computed op x y t).cell = s.cell := by simp [State.cell]
  rw [step_compute (h.atCompute _ _ _ _ _) (s.atCompute_phase .main op x y t),
    computeRelease_main (s := s.atCompute .main op x y t) _ ht rfl, State.atCompute_writeback,
    State.atResolve_setPhase (by simpa [Phase.cellIndex] using hcell.symm)]

/-- R80: the write-back of `IncrementCP` is followed by the next cell. -/
theorem step_atCompute_inc (h : s.Live) (op : AluOp) (x y : Num64) {t : RegName}
    (ht : s.currentTarget = some t) (hi : s.cell < s.mem.length) :
    step (s.atCompute .inc op x y t) = .next ((s.computed op x y t).startCell (s.cell + 1)) := by
  rw [step_compute (h.atCompute _ _ _ _ _) (s.atCompute_phase .inc op x y t),
    computeRelease_inc (s := s.atCompute .inc op x y t) ht rfl hi, State.atCompute_writeback,
    State.startCell_setPhase]

end dispatch

/-! ### IncrementCP -/

section increment

variable {s : State}

/-- R77: what `IncrementCP` leaves. -/
def State.incremented (s : State) : State :=
  { s.stage .add s.cp.value (ofInt 1) cpName with
    busActive := false
    busMessage := []
    pendingResult := some (alu .add s.cp.value (ofInt 1))
    cp := ⟨.direct, alu .add s.cp.value (ofInt 1)⟩ }

theorem State.computed_increment (s : State) :
    (s.stage .add s.cp.value (ofInt 1) cpName).computed .add s.cp.value (ofInt 1) cpName =
      s.incremented := State.writeTarget_cp_name _ _

theorem State.readOperand_cpName (s : State) : s.readOperand cpName = some s.cp.value := by
  simp [State.readOperand]

theorem step_atIncrement (h : s.Live) :
    step (s.atResolve .inc .add cpName oneToken 1) =
      .next ((s.stage .add s.cp.value (ofInt 1) cpName).atCompute .inc .add s.cp.value (ofInt 1)
        cpName) :=
  step_atResolve h .inc .add oneToken 1 s.readOperand_cpName

theorem step_increment_writeback (h : s.Live) (hi : s.cell < s.mem.length) :
    step ((s.stage .add s.cp.value (ofInt 1) cpName).atCompute .inc .add s.cp.value (ofInt 1)
        cpName) = .next (s.incremented.startCell (s.cell + 1)) := by
  rw [← s.computed_increment]
  exact step_atCompute_inc (s := s.stage .add s.cp.value (ofInt 1) cpName) (h.of_eq rfl rfl) _ _ _
    rfl hi

/-- R68: `k + 1` cycles are one cycle and then `k`. -/
theorem steps_succ {t : State} (h : step s = .next t) (k : Nat) : steps (k + 1) s = steps k t := by
  rw [steps, h]

/-- R77: `IncrementCP` takes two cycles. -/
theorem steps_atIncrement (h : s.Live) (hi : s.cell < s.mem.length) :
    steps 2 (s.atResolve .inc .add cpName oneToken 1) =
      .next (s.incremented.startCell (s.cell + 1)) := by
  rw [steps_succ (step_atIncrement h), steps_succ (step_increment_writeback h hi), steps]

end increment

/-! ### Lines without an action of their own -/

/-- R72: a line that strict tokenizing lets through decodes by its tokens. -/
theorem decode_of_accepted {strict : Bool} {l : Text}
    (h : strict = false ∨ canonical l = true) :
    decode strict l = .ok (decodeTokens (tokens l)) := by
  cases strict with
  | false => exact decode_false l
  | true => rw [decode_true, if_pos (h.resolve_left (by decide)), decode_false]

/-- R73, R75, R77: a line whose meaning is `IncrementCP` alone takes three cycles, and changes `CP`,
`IR` and the slot. -/
theorem steps_of_increment_alone {s : State} {i : Nat} {l : Text} (hlive : s.Live)
    (hp : s.phase = .fetchHold i) (hl : s.memRead i = some l)
    (hs : step s = .next ((s.fetched l).atResolve .inc .add cpName oneToken 1)) :
    ∃ t, steps 3 s = .next t ∧ t.x = s.x ∧ t.cp = ⟨.direct, alu .add s.cp.value (ofInt 1)⟩ ∧
      t.ir = some ⟨.direct, l⟩ ∧ t.mem = s.mem ∧ t.seq = i + 1 ∧ t.Live := by
  have hcell : (s.fetched l).cell = i := by simp [State.cell, hp, Phase.cellIndex]
  have hi : (s.fetched l).cell < (s.fetched l).mem.length :=
    hcell ▸ (s.memRead_some_iff i).1 ⟨l, hl⟩
  refine ⟨_, (steps_succ hs 2).trans (steps_atIncrement (hlive.of_eq rfl rfl) hi), ?_⟩
  rw [hcell]
  exact ⟨State.startCell_x _ _, State.startCell_cp _ _, State.startCell_ir _ _,
    State.startCell_mem _ _, State.startCell_seq _ _,
    hlive.of_eq (State.startCell_fault _ _) (State.startCell_refused _ _)⟩

end Sys2Proof.Machine

namespace Sys2Proof.Proofs

open Sys2Proof.Machine

/-- Settles O30: the equation of `step` for a fetch hold. -/
theorem fetchStepRunsDecodedInstruction : Obligations.FetchStepRunsDecodedInstruction :=
  fun _ _ _ hlive hp hl _ hd => step_fetch hlive hp hl hd

/-- Settles O23: fewer than three tokens decode as a skip, whose meaning is `IncrementCP` alone. -/
theorem decodeSkipOnlyIncrements : Obligations.DecodeSkipOnlyIncrements := by
  refine ⟨fun s _ => incrementCP_eq s, fun s i l _ hlive hp hl hshort haccepted => ?_⟩
  have hd := decode_of_accepted haccepted
  rw [decodeTokens_short hshort] at hd
  exact steps_of_increment_alone hlive hp hl ((step_fetch hlive hp hl hd).trans (incrementCP_eq _))

/-- Settles O24: three tokens under an unknown opcode have the meaning `IncrementCP` alone. -/
theorem unknownOpcodeOnlyIncrements : Obligations.UnknownOpcodeOnlyIncrements := by
  refine ⟨fun s _ _ _ => incrementCP_eq s,
    fun s i l op a b rest _ hlive hp hl htokens hop haccepted => ?_⟩
  have hd := decode_of_accepted haccepted
  rw [htokens, decodeTokens_unknown hop] at hd
  exact steps_of_increment_alone hlive hp hl ((step_fetch hlive hp hl hd).trans (incrementCP_eq _))

/-- Settles O25: by the two steps of `IncrementCP`; the sums are evaluated. -/
theorem incrementAddsOneToControlPointer : Obligations.IncrementAddsOneToControlPointer := by
  refine ⟨fun s hlive hi => ⟨step_atIncrement hlive, step_increment_writeback hlive hi⟩,
    fun s t hinv hs hne => ?_, by decide +kernel⟩
  obtain ⟨i, hp, hseq⟩ := step_seq hs hne
  obtain rfl := hinv.computeHold_index (step_live hs) hp
  obtain rfl := Host.Outcome.next.inj ((hinv.step_increment (step_live hs) hp).symm.trans hs)
  exact ⟨hp, hseq, State.startCell_cp _ _⟩

end Sys2Proof.Proofs
end

section
/-! PROOFS. The step table and the procedures agree (R80): on an instruction's own action, on a whole
cell (R76) and on a run (R78). -/

namespace Sys2Proof.Machine

/-! ### When the engine follows a procedure -/

/-- The engine, going on from what `e` answers, follows the procedure that answers `r` within `n`
cycles: to a state that `P` relates to the procedure's, or, where the procedure stops in a mark, to
the same state but for the phase. -/
inductive Refines (n : Nat) (P : State → State → Prop) (r e : Result) : Prop
  | live {u s t : State} {k : Nat} (hr : r = .next u) (he : e = .next s) (hk : k ≤ n)
      (hs : steps k s = .next t) (hu : u.Live) (h : P u t)
  | marked {u s : State} {k : Nat} {p : Phase} (hr : r = .next u) (he : e = .next s) (hk : k ≤ n)
      (hs : steps k s = .next (u.setPhase p)) (hu : ¬ u.Live)

theorem afterLive_live {u : State} (h : u.Live) (f : State → Result) :
    afterLive (.next u) f = f u := if_pos h

theorem afterLive_marked {u : State} (h : ¬ u.Live) (f : State → Result) :
    afterLive (.next u) f = .next u := if_neg h

section steps

variable {s t : State}

theorem exists_step_of_steps_succ {k : Nat} (h : steps (k + 1) s = .next t) :
    ∃ u, step s = .next u ∧ steps k u = .next t := by
  cases hs : step s with
  | next u => exact ⟨u, rfl, (steps_succ hs k).symm.trans h⟩
  | fault f => simp [steps, hs] at h
  | refused f => simp [steps, hs] at h

theorem steps_add {m : Nat} (h : steps m s = .next t) (n : Nat) :
    steps (m + n) s = steps n t := by
  induction m generalizing s with
  | zero =>
    obtain rfl := Host.Outcome.next.inj h
    rw [Nat.zero_add]
  | succ m ih =>
    obtain ⟨u, hs, hu⟩ := exists_step_of_steps_succ h
    rw [Nat.add_right_comm, steps_succ hs, ih hu]

/-- R30: any number of cycles keeps the invariant. -/
theorem steps_inv (hinv : s.Inv) {k : Nat} (h : steps k s = .next t) : t.Inv := by
  induction k generalizing s with
  | zero => exact Host.Outcome.next.inj h ▸ hinv
  | succ k ih =>
    obtain ⟨u, hs, hu⟩ := exists_step_of_steps_succ h
    exact ih (step_inv hinv hs) hu

end steps

section refines

variable {m n : Nat} {P Q : State → State → Prop} {r e : Result} {s t : State}

theorem Refines.imp (h : Refines m P r e) (hPQ : ∀ u t, P u t → Q u t) : Refines m Q r e := by
  cases h with
  | live hr he hk hs hu h => exact .live hr he hk hs hu (hPQ _ _ h)
  | marked hr he hk hs hu => exact .marked hr he hk hs hu

theorem Refines.mono (h : Refines m P r e) (hmn : m ≤ n) : Refines n P r e := by
  cases h with
  | live hr he hk hs hu h => exact .live hr he (hk.trans hmn) hs hu h
  | marked hr he hk hs hu => exact .marked hr he (hk.trans hmn) hs hu

/-- The procedure's state is reached before any cycle. -/
theorem Refines.here {u : State} (hu : u.Live) (h : P u t) : Refines n P (.next u) (.next t) :=
  .live rfl rfl n.zero_le rfl hu h

theorem Refines.marked_here {u : State} (p : Phase) (hu : ¬ u.Live) :
    Refines n P (.next u) (.next (u.setPhase p)) := .marked rfl rfl n.zero_le rfl hu

/-- One cycle more before the engine follows. -/
theorem Refines.of_step (hstep : step s = e) (h : Refines n P r e) :
    Refines (n + 1) P r (.next s) := by
  cases h with
  | live hr he hk hs hu h =>
    exact .live hr rfl (Nat.succ_le_succ hk) ((steps_succ (hstep.trans he) _).trans hs) hu h
  | marked hr he hk hs hu =>
    exact .marked hr rfl (Nat.succ_le_succ hk) ((steps_succ (hstep.trans he) _).trans hs) hu

/-- R112: one procedure after the other, while no mark is set. -/
theorem Refines.afterLive {f : State → Result} (h : Refines m P r e)
    (hf : ∀ u t, u.Live → P u t → Refines n Q (f u) (.next t)) :
    Refines (m + n) Q (afterLive r f) e := by
  cases h with
  | marked hr he hk hs hu =>
    rw [hr, afterLive_marked hu]
    exact .marked rfl he (hk.trans (m.le_add_right n)) hs hu
  | live hr he hk hs hu h =>
    rw [hr, afterLive_live hu]
    cases hf _ _ hu h with
    | live hr' he' hk' hs' hu' h' =>
      obtain rfl := Host.Outcome.next.inj he'
      exact .live hr' he (Nat.add_le_add hk hk') ((steps_add hs _).trans hs') hu' h'
    | marked hr' he' hk' hs' hu' =>
      obtain rfl := Host.Outcome.next.inj he'
      exact .marked hr' he (Nat.add_le_add hk hk') ((steps_add hs _).trans hs') hu'

/-- R30: the state that the engine reaches meets the invariant. -/
theorem Refines.inv (h : Refines n P r (.next s)) (hinv : s.Inv) :
    Refines n (fun u t => P u t ∧ t.Inv) r (.next s) := by
  cases h with
  | live hr he hk hs hu h =>
    obtain rfl := Host.Outcome.next.inj he
    exact .live hr rfl hk hs hu ⟨h, steps_inv hinv hs⟩
  | marked hr he hk hs hu => exact .marked hr he hk hs hu

theorem Refines.exists_steps (h : Refines n P r (.next s)) :
    ∃ u t k, r = .next u ∧ k ≤ n ∧ steps k s = .next t ∧
      if u.Live then P u t else { t with phase := u.phase } = u := by
  cases h with
  | live hr he hk hs hu h =>
    obtain rfl := Host.Outcome.next.inj he
    exact ⟨_, _, _, hr, hk, hs, by rwa [if_pos hu]⟩
  | marked hr he hk hs hu =>
    obtain rfl := Host.Outcome.next.inj he
    exact ⟨_, _, _, hr, hk, hs, by rw [if_neg hu]; rfl⟩

end refines

/-! ### What the procedures answer -/

section procedures

variable {s : State} {op : AluOp} {a : RegName} {b : Token}

theorem computeAndWriteback_empty (h : s.pendingOpcode = none) :
    computeAndWriteback s = .next (s.raiseFault .emptyStaging) := by
  simp [computeAndWriteback, h]

theorem computeAndWriteback_full {x y : Num64} {t : RegName} (h0 : s.pendingOpcode = some op)
    (h1 : s.pendingOperandOne = some x) (h2 : s.pendingOperandTwo = some y)
    (h3 : s.currentTarget = some t) : computeAndWriteback s = .next (s.computed op x y t) := by
  simp only [computeAndWriteback, h0, h1, h2, h3]
  rfl

/-- R88: what `AluDispatch` does after the register path. -/
theorem aluDispatch_of_path {t : State} (ht : t.Live) (h : resolvePath op a b s = t) :
    aluDispatch op a b s = computeAndWriteback t := by
  rw [aluDispatch, h, afterLive_live ht, State.addressPath_eq]

theorem aluDispatch_of_marked_path {t : State} (ht : ¬ t.Live) (h : resolvePath op a b s = t) :
    aluDispatch op a b s = .next t := by
  rw [aluDispatch, h, afterLive_marked ht]

/-- R91: an accepted path stages what it reads. -/
theorem aluDispatch_accepted {v : Int} {x : Num64} (h : s.Live) (ha : s.isReg a)
    (hb : classify b = .lit v) (hx : s.readOperand a = some x) :
    aluDispatch op a b s = .next ((s.stage op x (ofInt v) a).computed op x (ofInt v) a) := by
  have hx' : (busTransfer (Config.msgResolve op a b) s).readOperand a = some x := hx
  have hpath : resolvePath op a b s = s.busRelease.stage op x (ofInt v) a := by
    simp only [resolvePath, if_pos ha, hb, hx']
    rfl
  have hlive : (s.busRelease.stage op x (ofInt v) a).Live := h
  rw [aluDispatch_of_path hlive hpath]
  exact computeAndWriteback_full rfl rfl rfl rfl

theorem aluDispatch_uninitialized {v : Int} (ha : s.isReg a) (hb : classify b = .lit v)
    (hx : s.readOperand a = none) :
    aluDispatch op a b s = .next (s.busRelease.raiseFault .uninitializedRead) := by
  have hx' : (busTransfer (Config.msgResolve op a b) s).readOperand a = none := hx
  refine aluDispatch_of_marked_path (State.raiseFault_not_live _ _) ?_
  simp only [resolvePath, if_pos ha, hb, hx']
  rfl

theorem aluDispatch_unsettled (ha : s.isReg a) (hb : classify b = .unsettled) :
    aluDispatch op a b s = .next (s.refuse .unsettledLiteral) :=
  aluDispatch_of_marked_path (State.refuse_not_live _ _) (by simp only [resolvePath, if_pos ha, hb])

/-- R90: a rejected path, or none, does nothing. -/
theorem resolvePath_rejected (h : s.Rejects a b) : resolvePath op a b s = s := by
  unfold resolvePath
  split
  next ha => rcases h.resolve_left (not_not_intro ha) with hb | hb <;> simp only [hb]
  next => rfl

/-- R77: `IncrementCP` as a procedure. -/
theorem aluDispatch_increment (h : s.Live) :
    aluDispatch .add cpName oneToken s = .next s.incremented := by
  rw [aluDispatch_accepted h (isReg_cpName s) classify_oneToken s.readOperand_cpName,
    s.computed_increment]

theorem movProcedure_lit {v : Int} (ha : a ∈ s.params.avail) (hb : classify b = .lit v) :
    movProcedure a b s = s.writeReg a (ofInt v) := by simp only [movProcedure, if_pos ha, hb]

theorem movProcedure_unsettled (ha : a ∈ s.params.avail) (hb : classify b = .unsettled) :
    movProcedure a b s = s.refuse .unsettledLiteral := by simp only [movProcedure, if_pos ha, hb]

/-- R83, R85: an aborted or dropped write does nothing. -/
theorem movProcedure_dropped
    (h : a ∉ s.params.avail ∨ classify b = .zero ∨ classify b = .nonNumeric) :
    movProcedure a b s = s := by
  unfold movProcedure
  split
  next ha => rcases h.resolve_left (not_not_intro ha) with hb | hb <;> simp only [hb]
  next => rfl

/-- R71, R76: a cell that exists is fetched, then decoded. -/
theorem executeCell_fetched {i : Nat} {l : Text} (h : s.memRead i = some l) :
    executeCell i s = decodeAndDispatch l (s.fetched l) := by
  rw [executeCell, h]
  rfl

end procedures

/-! ### The instruction's own action -/

section action

variable {f : State} (i : Nat)

/-- `u` is what an action leaves of `f`, and the engine, in cell `i`, is about to increment `CP`. -/
def AtIncrement (f u t : State) : Prop :=
  u.mem = f.mem ∧ u.seq = f.seq ∧
    t = (u.setPhase (.fetchHold i)).atResolve .inc .add cpName oneToken 1

/-- R21: the staged fields come together. -/
abbrev State.SlotWhole (s : State) : Prop :=
  s.pendingOpcode.isSome → s.pendingOperandOne.isSome ∧ s.pendingOperandTwo.isSome
    ∧ s.currentTarget.isSome

/-- R95: the write-back of an action's own slot. -/
theorem computed_refines (h : f.Live) (op : AluOp) (x y : Num64) {n : RegName}
    (hn : f.currentTarget = some n) :
    Refines 1 (AtIncrement i f) (.next (f.computed op x y n))
      (.next ((f.setPhase (.fetchHold i)).atCompute .main op x y n)) := by
  refine .of_step (step_atCompute_main (s := f.setPhase (.fetchHold i)) h op x y hn) ?_
  rw [State.computed_setPhase]
  exact .here (h.computed op x y n) ⟨State.computed_mem .., State.computed_seq .., rfl⟩

/-- R94: the compute stage, on the slot as it stands. -/
theorem computeAndWriteback_refines (h : f.Live) (hslot : f.SlotWhole) :
    Refines 1 (AtIncrement i f) (computeAndWriteback f)
      (startCompute .main (f.setPhase (.fetchHold i))) := by
  obtain ⟨t, ht⟩ := startCompute_total (s := f.setPhase (.fetchHold i)) .main hslot
  rw [ht]
  rcases startCompute_cases ht with ⟨h0, rfl⟩ | ⟨op, x, y, n, h0, h1, h2, h3, rfl⟩
  · rw [computeAndWriteback_empty (s := f) h0]
    exact .marked_here (.fetchHold i) (State.raiseFault_not_live _ _)
  · rw [computeAndWriteback_full (s := f) h0 h1 h2 h3]
    exact computed_refines i h op x y h3

/-- R80, R88: an ALU instruction. -/
theorem aluDispatch_refines (h : f.Live) (hslot : f.SlotWhole) (op : AluOp) (a : RegName)
    (b : Token) :
    Refines 2 (AtIncrement i f) (aluDispatch op a b f)
      (dispatchAlu .main op a b (f.setPhase (.fetchHold i))) := by
  have hlive : (f.setPhase (.fetchHold i)).Live := h
  rcases dispatchAlu_cases .main op a b (f.setPhase (.fetchHold i)) with ⟨v, ha, hb, he⟩ |
    ⟨ha, hb, he⟩ | ⟨hrejects, he⟩ <;> rw [he]
  · cases hx : f.readOperand a with
    | none =>
      rw [aluDispatch_uninitialized (s := f) ha hb hx]
      refine .of_step (step_atResolve_uninitialized hlive .main op b v hx) ?_
      exact .marked_here (.resolveHold i .main op a (ofInt v)) (State.raiseFault_not_live _ _)
    | some x =>
      rw [aluDispatch_accepted (s := f) h ha hb hx]
      refine .of_step (step_atResolve hlive .main op b v hx) ?_
      exact computed_refines (f := f.stage op x (ofInt v) a) i h op x (ofInt v) rfl
  · rw [aluDispatch_unsettled (s := f) ha hb]
    exact .marked_here (.fetchHold i) (State.refuse_not_live _ _)
  · rw [aluDispatch_of_path h (resolvePath_rejected hrejects)]
    exact (computeAndWriteback_refines i h hslot).mono one_le_two

/-- R77, R80: where nothing but `IncrementCP` is left to do, the engine is at its resolve hold. -/
theorem increment_refines {u : State} (h : u.Live) (hmem : u.mem = f.mem) (hseq : u.seq = f.seq) :
    Refines 2 (AtIncrement i f) (.next u) (incrementCP (u.setPhase (.fetchHold i))) := by
  rw [incrementCP_eq]
  exact .here h ⟨hmem, hseq, rfl⟩

/-- R83: `mov`. -/
theorem movProcedure_refines (h : f.Live) (a : RegName) (b : Token) :
    Refines 2 (AtIncrement i f) (.next (movProcedure a b f))
      (execMov a b (f.setPhase (.fetchHold i))) := by
  rcases execMov_cases a b (f.setPhase (.fetchHold i)) with ⟨v, ha, hb, he⟩ | ⟨ha, hb, he⟩ |
    ⟨hdropped, he⟩ <;> rw [he]
  · rw [movProcedure_lit (s := f) ha hb]
    exact increment_refines (u := f.writeReg a (ofInt v)) i h rfl rfl
  · rw [movProcedure_unsettled (s := f) ha hb]
    exact .marked_here (.fetchHold i) (State.refuse_not_live _ _)
  · rw [movProcedure_dropped (s := f) hdropped]
    exact increment_refines i h rfl rfl

/-- R80, R74: the engine follows the dispatch of every instruction. -/
theorem dispatch_refines (h : f.Live) (hslot : f.SlotWhole) (d : Instr) :
    Refines 2 (AtIncrement i f) (dispatch d f) (exec d (f.setPhase (.fetchHold i))) := by
  cases d with
  | mov a b => exact movProcedure_refines i h a b
  | add a b => exact aluDispatch_refines i h hslot .add a b
  | sub a b => exact aluDispatch_refines i h hslot .sub a b
  | mul a b => exact aluDispatch_refines i h hslot .mul a b
  | div a b => exact aluDispatch_refines i h hslot .div a b
  | decodeSkip ts => exact increment_refines i h rfl rfl
  | unknownOpcode op a b => exact increment_refines i h rfl rfl

end action

/-! ### A cell -/

section cell

variable {s : State}

/-- R76: `u` is what `ExecuteCell` leaves of `s`, and the engine starts the next cell from it. -/
def AtNextCell (s u t : State) : Prop :=
  u.mem = s.mem ∧ u.seq = s.seq ∧ t = u.startCell (s.seq + 1)

/-- R77: the engine follows `IncrementCP`. -/
theorem AtIncrement.refines {f u t : State} (hu : u.Live) (h : AtIncrement f.seq f u t)
    (hi : f.seq < f.mem.length) :
    Refines 2 (AtNextCell f) (aluDispatch .add cpName oneToken u) (.next t) := by
  obtain ⟨hmem, hseq, rfl⟩ := h
  have hcell : (u.setPhase (.fetchHold f.seq)).cell < (u.setPhase (.fetchHold f.seq)).mem.length :=
    (congrArg (f.seq < List.length ·) hmem).mpr hi
  rw [aluDispatch_increment hu]
  exact .live rfl rfl le_rfl (steps_atIncrement (s := u.setPhase (.fetchHold f.seq)) hu hcell) hu
    ⟨hmem, hseq, u.incremented.startCell_setPhase (.fetchHold f.seq) (f.seq + 1)⟩

/-- R76, R80: the engine, at the start of the cell that `seq` names, follows `ExecuteCell`. -/
theorem executeCell_refines (h : s.Live) (hslot : s.SlotWhole) (hi : s.seq < s.mem.length) :
    Refines 5 (AtNextCell s) (executeCell s.seq s) (.next (s.startCell s.seq)) := by
  obtain ⟨l, hl⟩ := (s.memRead_some_iff s.seq).2 hi
  rw [executeCell_fetched hl, State.startCell_fetch s s.seq hl]
  cases hd : decode s.params.tokenizeStrict l with
  | ok d =>
    have haction := dispatch_refines (f := s.fetched l) s.seq h hslot d
    refine .of_step (step_fetch h rfl hl hd) ?_
    simp only [decodeAndDispatch, State.fetched_params, hd]
    exact haction.afterLive fun u t hu ht => ht.refines (f := s.fetched l) hu hi
  | error e =>
    refine .of_step (step_fetch_refused h rfl hl hd) ?_
    simp only [decodeAndDispatch, State.fetched_params, hd]
    exact .marked_here (.fetchHold s.seq) (State.refuse_not_live _ _)

/-- R30, R80: in a fetch hold the engine is at the start of the cell that `seq` names. -/
theorem State.Inv.startCell_of_fetchHold {i : Nat} (h : s.Inv) (hlive : s.Live)
    (hp : s.phase = .fetchHold i) :
    i = s.seq ∧ s.seq < s.mem.length ∧ s.startCell s.seq = s := by
  obtain ⟨hwf, hphase⟩ := h
  have hok := hphase hlive
  rw [State.PhaseOk, hp] at hok
  obtain ⟨hbus, -, rfl, hmessage⟩ := hok
  have hi := hwf.seqLt (by simp [hp])
  obtain ⟨l, hl⟩ := (s.memRead_some_iff s.seq).2 hi
  rw [hl, Option.getD_some] at hmessage
  refine ⟨rfl, hi, ?_⟩
  rw [State.startCell_fetch s s.seq hl, ← hbus, ← hmessage, ← hp]

end cell

/-! ### A run -/

/-- R78, R81: the engine, at the start of the cell that `seq` names, follows `Run()`. -/
theorem runCells_refines (n : Nat) {s : State} (h : s.Live) (hinv : (s.startCell s.seq).Inv)
    (hn : s.seq + n = s.mem.length) :
    Refines (5 * n) (fun u t => t = u ∧ t.Final) (runCells n s) (.next (s.startCell s.seq)) := by
  induction n generalizing s with
  | zero =>
    cases hl : s.memRead s.seq with
    | some l => exact absurd ((s.memRead_some_iff s.seq).1 ⟨l, hl⟩) (by omega)
    | none =>
      rw [State.startCell_past s s.seq hl] at hinv ⊢
      exact .here (u := { s with phase := .idle }) h ⟨rfl, hinv.final h rfl hn⟩
  | succ n ih =>
    have hslot : s.SlotWhole := by simpa using hinv.1.slotWhole
    have hcell := (executeCell_refines h hslot (by omega)).inv hinv
    rw [runCells, Nat.mul_succ, Nat.add_comm]
    refine hcell.afterLive fun u t hu ht => ?_
    obtain ⟨⟨hmem, hseq, rfl⟩, ht⟩ := ht
    rw [← hseq, ← u.startCell_overwrites u.phase (u.seq + 1)] at ht ⊢
    exact ih (s := { u with seq := u.seq + 1 }) hu ht (by simp only [hmem, hseq]; omega)

end Sys2Proof.Machine

namespace Sys2Proof.Proofs

open Sys2Proof.Machine

/-- Settles O56: the engine in a fetch hold is at the start of its cell, and follows
`ExecuteCell`. -/
theorem stepsRefineExecuteCell : Obligations.StepsRefineExecuteCell := by
  intro s i hinv hlive hp
  obtain ⟨rfl, hi, hstart⟩ := hinv.startCell_of_fetchHold hlive hp
  have hcell := executeCell_refines hlive hinv.1.slotWhole hi
  rw [hstart] at hcell
  exact (hcell.imp fun u t ⟨_, _, ht⟩ => ht).exists_steps

/-- Settles O57: by induction on the cells that are left, the engine follows `Run()`. -/
theorem runsEndAsTheProcedureSays : Obligations.RunsEndAsTheProcedureSays := by
  intro s i hinv hlive hp
  obtain ⟨rfl, hi, hstart⟩ := hinv.startCell_of_fetchHold hlive hp
  have hrun := runCells_refines (s.mem.length - s.seq) hlive (hstart.symm ▸ hinv)
    (Nat.add_sub_of_le hi.le)
  rw [hstart] at hrun
  exact hrun.exists_steps

end Sys2Proof.Proofs
end

section
/-! PROOFS. `mov`, one equation for each branch (R83 to R85), and what every meaning leaves as it was
(R74, R80). -/

namespace Sys2Proof.Machine

/-! ### `mov`, branch by branch -/

section mov

variable {s : State} {a : RegName} {b : Token}

theorem exec_mov_lit {v : Int} (ha : a ∈ s.params.avail) (hb : classify b = .lit v) :
    exec (.mov a b) s = .next ((s.writeReg a (ofInt v)).atResolve .inc .add cpName oneToken 1) := by
  simp only [exec, execMov, if_pos ha, hb, incrementCP_eq]

theorem exec_mov_unsettled (ha : a ∈ s.params.avail) (hb : classify b = .unsettled) :
    exec (.mov a b) s = .next (s.refuse .unsettledLiteral) := by
  simp only [exec, execMov, if_pos ha, hb]

/-- R83: the aborted write. -/
theorem exec_mov_aborted (ha : a ∈ s.params.avail)
    (hb : classify b = .zero ∨ classify b = .nonNumeric) :
    exec (.mov a b) s = .next (s.atResolve .inc .add cpName oneToken 1) := by
  rcases hb with hb | hb <;> simp only [exec, execMov, if_pos ha, hb, incrementCP_eq]

/-- R83, R85: the dropped write. -/
theorem exec_mov_outside_avail (ha : a ∉ s.params.avail) :
    exec (.mov a b) s = .next (s.atResolve .inc .add cpName oneToken 1) := by
  simp only [exec, execMov, if_neg ha, incrementCP_eq]

/-- R15: every name of `AVAIL` has a register, so a write to it is read back. -/
theorem State.Wf.readReg_writeReg_same (h : s.Wf) (ha : a ∈ s.params.avail) (v : Num64) :
    (s.writeReg a v).readReg a = some ⟨.direct, v⟩ :=
  State.readReg_writeReg_same (h.regNames ▸ ha) v

/-- R27: no configuration has a register named `"CP"`. -/
theorem State.Wf.cpName_not_mem_avail (h : s.Wf) : cpName ∉ s.params.avail := by
  intro hcp
  have hname := List.all_eq_true.1 h.availOk cpName hcp
  simp at hname

end mov

/-! ### What a meaning leaves unchanged -/

/-- `t` has the cycle time, the staged operation, its operands and its target of `s`. -/
structure State.SameStaging (s t : State) : Prop where
  cycleTime : t.cycleTime = s.cycleTime
  currentTarget : t.currentTarget = s.currentTarget
  pendingOpcode : t.pendingOpcode = s.pendingOpcode
  pendingOperandOne : t.pendingOperandOne = s.pendingOperandOne
  pendingOperandTwo : t.pendingOperandTwo = s.pendingOperandTwo

section frame

variable {s t : State}

theorem startCompute_sameStaging {w : Which} (h : startCompute w s = .next t) :
    s.SameStaging t := by
  rcases startCompute_cases h with ⟨-, rfl⟩ | ⟨_, _, _, _, -, -, -, -, rfl⟩ <;>
    exact ⟨rfl, rfl, rfl, rfl, rfl⟩

/-- R94: the compute stage sets no mark but `EmptyStaging`, and that on an empty slot. -/
theorem startCompute_marks {w : Which} (h : startCompute w s = .next t) :
    (t.fault = s.fault ∨ t.fault = some .emptyStaging ∧ s.pendingOpcode = none) ∧
      t.refused = s.refused := by
  rcases startCompute_cases h with ⟨hempty, rfl⟩ | ⟨_, _, _, _, -, -, -, -, rfl⟩
  · exact ⟨.inr ⟨rfl, hempty⟩, rfl⟩
  · exact ⟨.inl rfl, rfl⟩

/-- R91: a meaning stages nothing; staging is for the release of its resolve hold. -/
theorem exec_sameStaging {i : Instr} (h : exec i s = .next t) : s.SameStaging t := by
  rcases exec_cases i s with ⟨_, _, _, -, -, -, he⟩ | he | he | ⟨_, _, _, _, -, -, he⟩ | he <;>
    rw [he] at h
  case inr.inr.inr.inr => exact startCompute_sameStaging h
  all_goals
    obtain rfl := Host.Outcome.next.inj h
    exact ⟨rfl, rfl, rfl, rfl, rfl⟩

/-- R94, R111: the marks a meaning can set. -/
theorem exec_marks {i : Instr} (h : exec i s = .next t) :
    (t.fault = s.fault ∨ t.fault = some .emptyStaging ∧ s.pendingOpcode = none) ∧
      (t.refused = s.refused ∨ t.refused = some .unsettledLiteral) := by
  rcases exec_cases i s with ⟨_, _, _, -, -, -, he⟩ | he | he | ⟨_, _, _, _, -, -, he⟩ | he <;>
    rw [he] at h
  case inr.inr.inr.inr => exact (startCompute_marks h).imp_right .inl
  all_goals obtain rfl := Host.Outcome.next.inj h
  case inr.inr.inl => exact ⟨.inl rfl, .inr rfl⟩
  all_goals exact ⟨.inl rfl, .inl rfl⟩

/-- R83: a meaning changes no register but the destination of a `mov`, in `AVAIL`. -/
theorem exec_readReg {i : Instr} (h : exec i s = .next t) {n : RegName}
    (hn : (∀ b, i ≠ .mov n b) ∨ n ∉ s.params.avail) : t.readReg n = s.readReg n := by
  rcases exec_writes h with hsame | ⟨a, b, v, rfl, ha, hsame⟩
  · exact hsame.readReg n
  · have hna : n ≠ a := by
      rintro rfl
      exact hn.elim (fun hmov => hmov b rfl) (fun habsent => habsent ha)
    exact (hsame.readReg n).trans (State.readReg_writeReg_other hna v)

/-- R17: a meaning leaves `CP`, `IR` and the parameters. -/
theorem exec_cp_ir_params {i : Instr} (h : exec i s = .next t) :
    t.cp = s.cp ∧ t.ir = s.ir ∧ t.params = s.params := by
  rcases exec_writes h with hsame | ⟨a, b, v, -, -, hsame⟩ <;>
    exact ⟨hsame.cp, hsame.ir, hsame.params⟩

theorem incrementCP_pendingResult (h : incrementCP s = .next t) :
    t.pendingResult = s.pendingResult := by
  rw [incrementCP_eq] at h
  obtain rfl := Host.Outcome.next.inj h
  rfl

/-- R95: without an ALU instruction nothing is computed before the next hold. -/
theorem exec_pendingResult {i : Instr} (halu : ∀ op a b, i ≠ aluInstr op a b)
    (h : exec i s = .next t) : t.pendingResult = s.pendingResult := by
  cases i with
  | mov a b =>
    change execMov a b s = .next t at h
    rcases execMov_cases a b s with ⟨v, -, -, he⟩ | ⟨-, -, he⟩ | ⟨-, he⟩ <;> rw [he] at h
    · exact (incrementCP_pendingResult h).trans (s.writeReg_pendingResult a (ofInt v))
    · obtain rfl := Host.Outcome.next.inj h
      rfl
    · exact incrementCP_pendingResult h
  | add a b => exact absurd rfl (halu .add a b)
  | sub a b => exact absurd rfl (halu .sub a b)
  | mul a b => exact absurd rfl (halu .mul a b)
  | div a b => exact absurd rfl (halu .div a b)
  | decodeSkip ts => exact incrementCP_pendingResult h
  | unknownOpcode op a b => exact incrementCP_pendingResult h

end frame

end Sys2Proof.Machine

namespace Sys2Proof.Proofs

open Sys2Proof.Machine

/-- Settles O16: the register write is read back, and `IncrementCP` is only at its resolve hold. -/
theorem movDestinationReadsLiteral : Obligations.MovDestinationReadsLiteral :=
  fun _ _ _ v hwf ha hb => ⟨_, exec_mov_lit ha hb, hwf.readReg_writeReg_same ha (ofInt v),
    fun _ hn => State.readReg_writeReg_other hn (ofInt v), rfl, (isLiteral_of_classify hb).isZero⟩

/-- Settles O26: memory, sequencer, registers, staging and marks, each by what a meaning can
answer. -/
theorem meaningsFrame : Obligations.MeaningsFrame := by
  intro i s t h
  obtain ⟨hcp, hir, hparams⟩ := exec_cp_ir_params h
  obtain ⟨hcycle, htarget, hop, hone, htwo⟩ := exec_sameStaging h
  obtain ⟨hfault, hrefused⟩ := exec_marks h
  exact ⟨State.memRead_eq s t (exec_mem h), exec_mem h, hcp, hir, hcycle, exec_seq h, hparams,
    htarget, hop, hone, htwo, hfault, hrefused, fun _ => exec_readReg h,
    fun halu => exec_pendingResult halu h⟩

/-- Settles O15: one equation for each branch. -/
theorem movRule : Obligations.MovRule := fun _ _ _ =>
  ⟨fun _ => exec_mov_lit, exec_mov_unsettled, exec_mov_aborted, exec_mov_outside_avail⟩

/-- Settles O17: `CP` is a name outside `AVAIL` like any other. -/
theorem movOutsideAvailIsDropped : Obligations.MovOutsideAvailIsDropped := fun _ hwf =>
  ⟨hwf.cpName_not_mem_avail, fun _ _ => exec_mov_outside_avail⟩

end Sys2Proof.Proofs
end

section
/-! PROOFS. The ALU instructions (R88 to R106): what every step keeps of values and slot, and
the dispatch of an ALU line in every case. The four meanings differ in the operation alone. -/

namespace Sys2Proof.Machine

variable {s : State} {a : RegName} {b : Token}

/-! ### The dispatch of an ALU line -/

/-- R62, R88: the four ALU instructions have one meaning, over their operation. -/
theorem exec_aluInstr (op : AluOp) (a : RegName) (b : Token) (s : State) :
    exec (aluInstr op a b) s = dispatchAlu .main op a b s := by
  cases op <;> rfl

/-- R90: a rejected line goes straight to the compute stage. -/
theorem exec_aluInstr_rejected (h : s.Rejects a b) (op : AluOp) :
    exec (aluInstr op a b) s = startCompute .main s :=
  (exec_aluInstr op a b s).trans (dispatchAlu_stale .main op h)

/-- R91: an accepted line goes to its resolve hold. -/
theorem exec_aluInstr_accepted {v : Int} (ha : s.isReg a) (hb : classify b = .lit v) (op : AluOp) :
    exec (aluInstr op a b) s = .next (s.atResolve .main op a b v) :=
  (exec_aluInstr op a b s).trans (dispatchAlu_lit .main op ha hb)

/-- R67: a resolve hold asserts the bus, whatever it was before the write-back. -/
theorem State.computed_atResolve (s : State) (op : AluOp) (x y : Num64) (t : RegName) (w : Which)
    (op' : AluOp) (a : RegName) (b : Token) (v : Int) :
    (s.computed op x y t).atResolve w op' a b v =
      ((s.withResult (alu op x y)).writeTarget t (alu op x y)).atResolve w op' a b v := by
  unfold State.computed State.writeTarget
  split <;> rfl

/-- R99 to R102: the rule of each ALU instruction, case by case. -/
theorem aluRule (op : AluOp) : AluRule (aluInstr op) op := by
  intro s a b hlive
  refine ⟨fun v x ha hb hx => ⟨exec_aluInstr_accepted ha hb op,
      step_atResolve hlive .main op b v hx, ?_⟩,
    fun v ha hb hx => ⟨exec_aluInstr_accepted ha hb op,
      step_atResolve_uninitialized hlive .main op b v hx⟩,
    fun ha hb => ?_, fun op' x y t hrej h0 h1 h2 h3 => ?_, fun hrej h0 => ?_⟩
  · have hstaged : (s.stage op x (ofInt v) a).Live := hlive
    rw [step_atCompute_main hstaged op x (ofInt v) rfl, State.computed_atResolve]
    rfl
  · exact (exec_aluInstr op a b s).trans (dispatchAlu_unsettled .main op ha hb)
  · exact (exec_aluInstr_rejected hrej op).trans (startCompute_full .main h0 h1 h2 h3)
  · exact (exec_aluInstr_rejected hrej op).trans (startCompute_empty .main h0)

/-! ### Rejected lines -/

/-- R15, R16: `s` with other registers and another control pointer. -/
def State.withRegisters (s : State) (x : List (RegName × Option Reg)) (cp : Reg) : State :=
  { s with x := x, cp := cp }

/-- R90, R94: the compute stage reads no register and not `CP`. -/
theorem startCompute_withRegisters {w : Which} {t : State} (h : startCompute w s = .next t)
    (x : List (RegName × Option Reg)) (cp : Reg) :
    startCompute w (s.withRegisters x cp) = .next (t.withRegisters x cp) := by
  rcases startCompute_cases h with ⟨h0, rfl⟩ | ⟨op, y, z, n, h0, h1, h2, h3, rfl⟩
  · exact startCompute_empty (s := s.withRegisters x cp) w h0
  · exact startCompute_full (s := s.withRegisters x cp) w h0 h1 h2 h3

/-- R94, R95: the compute stage ends at its hold or at the mark of an empty slot. -/
theorem startCompute_phase {w : Which} {t : State} (h : startCompute w s = .next t) :
    t.phase = .computeHold s.cell w ∨ t = s.raiseFault .emptyStaging := by
  rcases startCompute_cases h with ⟨-, rfl⟩ | ⟨_, _, _, _, -, -, -, -, rfl⟩
  · exact .inr rfl
  · exact .inl rfl

/-- R104: a filled slot between cells holds the last `IncrementCP`. -/
theorem State.SlotIsIncrement.of_filled (h : s.SlotIsIncrement) (h0 : s.pendingOpcode ≠ none) :
    ∃ c, s.SlotIs .add c (ofInt 1) (alu .add c (ofInt 1)) cpName ∧
      s.cp.value = alu .add c (ofInt 1) :=
  h.resolve_left fun ⟨hempty, _⟩ => h0 hempty

theorem State.Wf.cp_eq (h : s.Wf) {r : Num64} (hr : s.cp.value = r) : s.cp = ⟨.direct, r⟩ := by
  rw [← hr, ← h.cpDirect]

theorem State.fetched_cell {i : Nat} (hp : s.phase = .fetchHold i) (l : Text) :
    (s.fetched l).cell = i := by simp [State.cell, hp, Phase.cellIndex]

/-! ### An accepted line -/

/-- R80: an accepted ALU instruction on an initialized register takes two cycles from its resolve
hold to that of `IncrementCP`. -/
theorem steps_atResolve_main (h : s.Live) (op : AluOp) (b : Token) (v : Int) {x : Num64}
    (hx : s.readOperand a = some x) :
    steps 2 (s.atResolve .main op a b v) =
      .next (((s.stage op x (ofInt v) a).computed op x (ofInt v) a).atResolve .inc .add cpName
        oneToken 1) := by
  have hstaged : (s.stage op x (ofInt v) a).Live := h
  rw [steps_succ (step_atResolve h .main op b v hx),
    steps_succ (step_atCompute_main hstaged op x (ofInt v) rfl), steps]

end Sys2Proof.Machine

namespace Sys2Proof.Proofs

open Sys2Proof.Machine

/-- Settles O51: each stage of the step keeps the bounds, the resolve stage because a resolve hold
carries a literal's value. -/
theorem stepKeepsValueBounds : Obligations.StepKeepsValueBounds := fun _ _ => step_valuesOk

/-- Settles O52: only the write-back of `IncrementCP` leads to a fetch or to `Idle`. -/
theorem stepKeepsSlotInvariant : Obligations.StepKeepsSlotInvariant := fun _ _ => step_slotInv

/-- Settles O18: the meaning of a rejected line is the compute stage alone. -/
theorem rejectedOperandsAreIgnored : Obligations.RejectedOperandsAreIgnored := by
  refine ⟨fun s op a b h => ⟨resolvePath_rejected h, fun t ht => ?_⟩,
    fun s op op' a a' b b' h h' => ?_, fun s op a b b' ha => ?_⟩
  · rw [exec_aluInstr_rejected h op] at ht
    obtain ⟨-, htarget, hop, hone, htwo⟩ := startCompute_sameStaging ht
    refine ⟨hop, hone, htwo, htarget, startCompute_phase ht, fun x cp => ?_⟩
    have h' : (s.withRegisters x cp).Rejects a b := h
    exact (exec_aluInstr_rejected h' op).trans (startCompute_withRegisters ht x cp)
  · rw [exec_aluInstr_rejected h, exec_aluInstr_rejected h']
  · rw [exec_aluInstr_rejected (.inl ha), exec_aluInstr_rejected (.inl ha)]

/-- Settles O28: the slot of the last `IncrementCP` is computed again, and `CP` holds its result. -/
theorem staleWritebackChangesNothing : Obligations.StaleWritebackChangesNothing := by
  intro s i l op a b hinv hslotInv hlive hp hl hd hrej hfilled
  obtain ⟨c, ⟨h0, h1, h2, h3, h4⟩, hcp⟩ :=
    (hslotInv.slotIsIncrement_of_fetchHold hp).of_filled hfilled
  have hrej' : (s.fetched l).Rejects a b := hrej
  have hlive' : (s.fetched l).Live := hlive
  have hfirst : step s = .next ((s.fetched l).atCompute .main .add c (ofInt 1) cpName) :=
    calc step s = exec (aluInstr op a b) (s.fetched l) := step_fetch hlive hp hl hd
      _ = startCompute .main (s.fetched l) := exec_aluInstr_rejected hrej' op
      _ = _ := startCompute_full (s := s.fetched l) .main h0 h1 h2 h4
  have hsecond := step_atCompute_main hlive' .add c (ofInt 1) h4
  rw [State.computed, State.writeTarget_cp_name] at hsecond
  refine ⟨_, _, hfirst, ?_, rfl, rfl, h3.symm, hsecond, rfl, (hinv.1.cp_eq hcp).symm, h3.symm, ?_⟩
  · rw [State.atCompute_phase, State.fetched_cell hp]
  · rw [State.atResolve_phase]
    exact congrArg (Phase.resolveHold · .inc .add cpName (ofInt 1)) (State.fetched_cell hp l)

/-- Settles O29: one cycle of fetch, two of the line itself and two of `IncrementCP`. -/
theorem aluOnControlPointer : Obligations.AluOnControlPointer := by
  intro s i l op b v _ hlive hp hl hd hb
  have hcell := State.fetched_cell hp l
  have hlive' : (s.fetched l).Live := hlive
  have hfetch : step s = .next ((s.fetched l).atResolve .main op cpName b v) :=
    (step_fetch hlive hp hl hd).trans (exec_aluInstr_accepted (isReg_cpName _) hb op)
  have hline := steps_atResolve_main hlive' op b v (s.fetched l).readOperand_cpName
  rw [State.computed, State.writeTarget_cp_name] at hline
  have hi : (s.fetched l).cell < s.mem.length := hcell ▸ (s.memRead_some_iff i).1 ⟨l, hl⟩
  have hrun := (steps_succ hfetch 4).trans ((steps_add hline 2).trans (steps_atIncrement hlive hi))
  exact ⟨_, hrun, (State.startCell_seq _ _).trans (congrArg (· + 1) hcell), State.startCell_x _ _,
    State.startCell_cp _ _⟩

/-- Settles O19: the rule of every ALU instruction; the sums are evaluated. -/
theorem addRule : Obligations.AddRule := ⟨aluRule .add, by decide +kernel⟩

/-- Settles O21: the rule of every ALU instruction; the products are evaluated. -/
theorem mulRule : Obligations.MulRule := ⟨aluRule .mul, by unfold IsWhole; decide +kernel⟩

/-- Settles O22: the rule of every ALU instruction; the quotients are evaluated. -/
theorem divRule : Obligations.DivRule := ⟨aluRule .div, by decide +kernel⟩

end Sys2Proof.Proofs
end

section
/-! PROOFS. The ALU function on special values and its signs (R98 items 3, 5 and 6, R103): the classes
of data, what negation changes, and one equation for each pair of classes. -/

namespace Sys2Proof.Machine

/-! ### The classes of data -/

section classes

variable {d : Num64}

theorem isInf_iff : isInf d = true ↔ expOf d = 2047 ∧ fracOf d = 0 := by simp [isInf]

theorem isZero_iff : isZero d = true ↔ expOf d = 0 ∧ fracOf d = 0 := by simp [isZero]

theorem isNaN_of_isInf (h : isInf d = true) : isNaN d = false := by
  simp [isNaN, (isInf_iff.1 h).2]

theorem isFinite_of_isZero (h : isZero d = true) : isFinite d = true := by
  simp [isFinite, (isZero_iff.1 h).1]

theorem isInf_pack (neg : Bool) {m : Nat} (h : m ≤ infMag) :
    isInf (pack neg m) = true ↔ m = infMag := by
  have hm : m ≤ 2047 * 2 ^ 52 := h
  rw [isInf_iff, expOf_pack neg h, fracOf_pack neg h]
  show _ ↔ m = 2047 * 2 ^ 52
  omega

theorem isInf_pack_infMag (neg : Bool) : isInf (pack neg infMag) = true :=
  (isInf_pack neg le_rfl).2 rfl

theorem isZero_pack_zero (neg : Bool) : isZero (pack neg 0) = true :=
  isZero_iff.2 ⟨expOf_pack neg (Nat.zero_le _), fracOf_pack neg (Nat.zero_le _)⟩

/-! ### Negation -/

theorem expOf_negate (d : Num64) : expOf (negate d) = expOf d := by
  rw [expOf, negate, BitVec.extractLsb'_xor]
  simp [expOf]

theorem fracOf_negate (d : Num64) : fracOf (negate d) = fracOf d := by
  rw [fracOf, negate, BitVec.extractLsb'_xor]
  simp [fracOf]

theorem signOf_negate (d : Num64) : signOf (negate d) = !signOf d := by
  simp [signOf, negate]

theorem isNaN_negate (d : Num64) : isNaN (negate d) = isNaN d := by
  rw [isNaN, expOf_negate, fracOf_negate, isNaN]

theorem isInf_negate (d : Num64) : isInf (negate d) = isInf d := by
  rw [isInf, expOf_negate, fracOf_negate, isInf]

theorem scaled_negate (d : Num64) : scaled (negate d) = -scaled d := by
  rw [scaled, scaled, magnitude, magnitude, signOf_negate, expOf_negate, fracOf_negate]
  cases signOf d <;> simp

end classes

/-! ### One equation for each pair of classes -/

section operations

variable {nan x y : Num64}

theorem addNum_nan (h : isNaN x = true ∨ isNaN y = true) : addNum nan x y = nan := by
  simp [addNum, h]

theorem addNum_inf_finite (hx : isInf x = true) (hy : isFinite y = true) : addNum nan x y = x := by
  simp [addNum, hx, isNaN_of_isInf hx, isNaN_of_isFinite hy, isInf_of_isFinite hy]

theorem addNum_finite_inf (hx : isFinite x = true) (hy : isInf y = true) : addNum nan x y = y := by
  simp [addNum, hy, isNaN_of_isInf hy, isNaN_of_isFinite hx, isInf_of_isFinite hx]

theorem addNum_inf_inf (hx : isInf x = true) (hy : isInf y = true) :
    addNum nan x y = if signOf x = signOf y then x else nan := by
  simp [addNum, hx, hy, isNaN_of_isInf hx, isNaN_of_isInf hy]

theorem addNum_finite (hx : isFinite x = true) (hy : isFinite y = true) :
    addNum nan x y =
      pack (if scaled x + scaled y = 0 then signOf x && signOf y
          else decide (scaled x + scaled y < 0))
        (roundMag (scaled x + scaled y).natAbs 1) := by
  simp [addNum, isNaN_of_isFinite hx, isNaN_of_isFinite hy, isInf_of_isFinite hx,
    isInf_of_isFinite hy]

theorem mulNum_nan (h : isNaN x = true ∨ isNaN y = true) : mulNum nan x y = nan := by
  simp [mulNum, h]

/-- R98 items 5 and 6: a product with an infinity. -/
theorem mulNum_inf (hx : isNaN x = false) (hy : isNaN y = false)
    (h : isInf x = true ∨ isInf y = true) :
    mulNum nan x y =
      if isZero x || isZero y then nan else pack (signOf x != signOf y) infMag := by
  simp [mulNum, hx, hy, h]

theorem mulNum_finite (hx : isFinite x = true) (hy : isFinite y = true) :
    mulNum nan x y =
      pack (signOf x != signOf y) (roundMag (magnitude x * magnitude y) oneUnits) := by
  simp [mulNum, isNaN_of_isFinite hx, isNaN_of_isFinite hy, isInf_of_isFinite hx,
    isInf_of_isFinite hy]

theorem divNum_nan (h : isNaN x = true ∨ isNaN y = true) : divNum nan x y = nan := by
  simp [divNum, h]

theorem divNum_inf_finite (hx : isInf x = true) (hy : isFinite y = true) :
    divNum nan x y = pack (signOf x != signOf y) infMag := by
  simp [divNum, hx, isNaN_of_isInf hx, isNaN_of_isFinite hy, isInf_of_isFinite hy]

theorem divNum_finite_inf (hx : isFinite x = true) (hy : isInf y = true) :
    divNum nan x y = pack (signOf x != signOf y) 0 := by
  simp [divNum, hy, isNaN_of_isInf hy, isNaN_of_isFinite hx, isInf_of_isFinite hx]

theorem divNum_inf_inf (hx : isInf x = true) (hy : isInf y = true) : divNum nan x y = nan := by
  simp [divNum, hx, hy, isNaN_of_isInf hx, isNaN_of_isInf hy]

/-- R103: division by zero. -/
theorem divNum_zero (hx : isFinite x = true) (hy : isZero y = true) :
    divNum nan x y = if isZero x then nan else pack (signOf x != signOf y) infMag := by
  have hyfin := isFinite_of_isZero hy
  simp [divNum, hy, isNaN_of_isFinite hx, isNaN_of_isFinite hyfin, isInf_of_isFinite hx,
    isInf_of_isFinite hyfin]

theorem divNum_finite (hx : isFinite x = true) (hy : isFinite y = true) (hy0 : isZero y = false) :
    divNum nan x y =
      pack (signOf x != signOf y) (roundMag (magnitude x * oneUnits) (magnitude y)) := by
  simp [divNum, hy0, isNaN_of_isFinite hx, isNaN_of_isFinite hy, isInf_of_isFinite hx,
    isInf_of_isFinite hy]

/-- R98 item 3: a product is the NaN, or a magnitude under the exclusive or of the signs. -/
theorem mulNum_cases (nan x y : Num64) :
    mulNum nan x y = nan ∨ ∃ m ≤ infMag, mulNum nan x y = pack (signOf x != signOf y) m := by
  unfold mulNum
  split_ifs
  · exact .inl rfl
  · exact .inl rfl
  · exact .inr ⟨_, le_rfl, rfl⟩
  · exact .inr ⟨_, roundMag_le_infMag _ _, rfl⟩

/-- R98 item 3: so is a quotient. -/
theorem divNum_cases (nan x y : Num64) :
    divNum nan x y = nan ∨ ∃ m ≤ infMag, divNum nan x y = pack (signOf x != signOf y) m := by
  unfold divNum
  split_ifs
  · exact .inl rfl
  · exact .inl rfl
  · exact .inr ⟨_, le_rfl, rfl⟩
  · exact .inr ⟨_, Nat.zero_le _, rfl⟩
  · exact .inl rfl
  · exact .inr ⟨_, le_rfl, rfl⟩
  · exact .inr ⟨_, roundMag_le_infMag _ _, rfl⟩

theorem signOf_eq_of_cases {r : Num64} {neg : Bool} (hnan : isNaN nan = true)
    (hr : r = nan ∨ ∃ m ≤ infMag, r = pack neg m) (h : isNaN r = false) : signOf r = neg := by
  rcases hr with rfl | ⟨m, hm, rfl⟩
  · exact absurd hnan (by simp [h])
  · exact signOf_pack neg hm

/-- R98 item 3: opposite data of different signs have the sum +0. -/
theorem addNum_opposite (hx : isFinite x = true) :
    addNum nan x (negate x) = 0x0000000000000000#64 := by
  rw [addNum_finite hx ((isFinite_negate x).trans hx), scaled_negate, signOf_negate, add_neg_cancel,
    if_pos rfl, Bool.and_not_self]
  decide +kernel

end operations

/-! ### The ALU on special values -/

section special

variable {x y : Num64}

/-- R98 item 6: a NaN operand. -/
theorem isNaN_alu_of_isNaN (op : AluOp) (h : isNaN x = true ∨ isNaN y = true) :
    isNaN (alu op x y) = true := by
  cases op with
  | add => rw [alu_add, addNum_nan h]; exact isNaN_nanResult .add x y
  | sub =>
    rw [alu_sub, addNum_nan (h.imp_right (isNaN_negate y).trans)]
    exact isNaN_nanResult .sub x y
  | mul => rw [alu_mul, mulNum_nan h]; exact isNaN_nanResult .mul x y
  | div => rw [alu_div, divNum_nan h]; exact isNaN_nanResult .div x y

/-- R98 items 5 and 6: an infinity and a datum that is no NaN have an infinite product, but for a
zero, with which it is a NaN. -/
theorem alu_mul_inf (hx : isNaN x = false) (hy : isNaN y = false)
    (h : isInf x = true ∨ isInf y = true) :
    (isZero x = false → isZero y = false → isInf (alu .mul x y) = true) ∧
      (isZero x = true ∨ isZero y = true → isNaN (alu .mul x y) = true) := by
  rw [alu_mul, mulNum_inf hx hy h]
  refine ⟨fun hx0 hy0 => ?_, fun h0 => ?_⟩
  · simp [hx0, hy0, isInf_pack_infMag]
  · simp [h0, isNaN_nanResult]

/-- R98 items 5 and 6: sum and difference of two infinities. -/
theorem alu_add_sub_inf_inf (hx : isInf x = true) (hy : isInf y = true) :
    if signOf x = signOf y then isNaN (alu .sub x y) = true ∧ alu .add x y = x
    else isNaN (alu .add x y) = true ∧ alu .sub x y = x := by
  rw [alu_add, alu_sub, addNum_inf_inf hx hy, addNum_inf_inf hx ((isInf_negate y).trans hy),
    signOf_negate]
  by_cases h : signOf x = signOf y
  · simp [h, isNaN_nanResult]
  · simp [Bool.eq_not_of_ne h, isNaN_nanResult]

end special

end Sys2Proof.Machine

namespace Sys2Proof.Proofs

open Sys2Proof.Machine

/-- Settles O12: products and quotients pack the exclusive or of the signs, and a zero sum of
opposite signs is +0. -/
theorem signsOfResults : Obligations.SignsOfResults := by
  refine ⟨fun x y h => ?_, fun x y h => ?_, fun x hx => ?_, fun x hx => ?_, by decide +kernel⟩
  · rw [alu_mul] at h ⊢
    exact signOf_eq_of_cases (isNaN_nanResult .mul x y) (mulNum_cases _ x y) h
  · rw [alu_div] at h ⊢
    exact signOf_eq_of_cases (isNaN_nanResult .div x y) (divNum_cases _ x y) h
  · rw [alu_sub, addNum_opposite hx]
  · rw [alu_add, addNum_opposite hx]

/-- Settles O13, by the classes of the operands. -/
theorem infinitiesAndNaN : Obligations.InfinitiesAndNaN := by
  refine ⟨fun op _ _ => isNaN_alu_of_isNaN op, fun x y hx hy => ?_, fun x y hx hy => ?_,
    fun x y hx hy => ?_, fun x y hx hy => ?_⟩
  · obtain ⟨hmul, hmulNaN⟩ := alu_mul_inf (isNaN_of_isInf hx) (isNaN_of_isFinite hy) (.inl hx)
    have hdiv : isInf (alu .div x y) = true := by
      rw [alu_div, divNum_inf_finite hx hy]
      exact isInf_pack_infMag _
    exact ⟨(alu_add x y).trans (addNum_inf_finite hx hy),
      (alu_sub x y).trans (addNum_inf_finite hx ((isFinite_negate y).trans hy)), hdiv,
      hmul (isZero_of_isInf hx), fun hy0 => hmulNaN (.inr hy0)⟩
  · obtain ⟨hmul, hmulNaN⟩ := alu_mul_inf (isNaN_of_isFinite hx) (isNaN_of_isInf hy) (.inr hy)
    have hdiv : isZero (alu .div x y) = true := by
      rw [alu_div, divNum_finite_inf hx hy]
      exact isZero_pack_zero _
    exact ⟨hdiv, (alu_add x y).trans (addNum_finite_inf hx hy),
      (alu_sub x y).trans (addNum_finite_inf hx ((isInf_negate y).trans hy)),
      fun hx0 => hmul hx0 (isZero_of_isInf hy), fun hx0 => hmulNaN (.inl hx0)⟩
  · obtain ⟨hmul, -⟩ := alu_mul_inf (isNaN_of_isInf hx) (isNaN_of_isInf hy) (.inl hx)
    have hdiv : isNaN (alu .div x y) = true := by
      rw [alu_div, divNum_inf_inf hx hy]
      exact isNaN_nanResult .div x y
    exact ⟨hdiv, hmul (isZero_of_isInf hx) (isZero_of_isInf hy), alu_add_sub_inf_inf hx hy⟩
  · rw [alu_div, divNum_zero hx hy]
    by_cases hx0 : isZero x = true
    · simp [hx0, isNaN_nanResult]
    · simp [hx0, isInf_pack_infMag]

end Sys2Proof.Proofs
end

section
/-! PROOFS. The ALU function on finite data (R97, R98 items 1 and 2): the exact result of every
operation as a fraction of units, which the ALU packs rounded once, and the results that are whole
numbers. -/

namespace Sys2Proof.Machine

/-! ### Magnitude, sign and value -/

section value

variable {x y : Num64}

theorem natAbs_scaled (x : Num64) : (scaled x).natAbs = magnitude x := by
  unfold scaled
  split <;> simp

theorem magnitude_eq_zero_iff : magnitude x = 0 ↔ isZero x = true := by
  rw [isZero_iff, magnitude]
  by_cases h : expOf x = 0 <;> simp [h]

theorem magnitude_pos (h : isZero x = false) : 0 < magnitude x :=
  Nat.pos_of_ne_zero (mt magnitude_eq_zero_iff.1 (by simp [h]))

theorem scaled_ne_zero (h : isZero x = false) : scaled x ≠ 0 := by
  rw [← Int.natAbs_pos, natAbs_scaled]
  exact magnitude_pos h

/-- The sign bit of a datum that is not zero is the sign of its value. -/
theorem signOf_eq_decide (h : scaled x ≠ 0) : signOf x = decide (scaled x < 0) := by
  unfold scaled at h ⊢
  cases signOf x
  · simp
  · simp at h ⊢
    omega

theorem signs_eq_decide_mul (h : scaled x * scaled y ≠ 0) :
    (signOf x != signOf y) = decide (scaled x * scaled y < 0) := by
  obtain ⟨hx, hy⟩ := mul_ne_zero_iff.1 h
  rw [signOf_eq_decide hx, signOf_eq_decide hy, Bool.eq_iff_iff]
  rcases lt_or_gt_of_ne hx with hx | hx <;> rcases lt_or_gt_of_ne hy with hy | hy <;>
    simp [mul_neg_iff, hx, hy, hx.not_gt, hy.not_gt]

end value

/-! ### The exact result -/

/-- R98: the exact result of an operation on finite data, times `exactDen`, in units. The division's
fraction is taken over the magnitude of the divisor. -/
def exactNum (op : AluOp) (x y : Num64) : Int :=
  match op with
  | .add => scaled x + scaled y
  | .sub => scaled x - scaled y
  | .mul => scaled x * scaled y
  | .div => scaled x * oneUnits * (scaled y).sign

/-- R98: the denominator of the exact result. -/
def exactDen (op : AluOp) (y : Num64) : Nat :=
  match op with
  | .add => 1
  | .sub => 1
  | .mul => oneUnits
  | .div => magnitude y

/-- The operands that R98 gives a real result: finite ones, and no division by a zero. -/
structure RealOperands (op : AluOp) (x y : Num64) : Prop where
  one : isFinite x = true
  two : isFinite y = true
  divisor : op = .div → isZero y = false

section exact

variable {op : AluOp} {x y : Num64}

theorem oneUnits_pos : 0 < oneUnits := pow_pos two_pos 1074

theorem exactDen_pos (h : op = .div → isZero y = false) : 0 < exactDen op y := by
  cases op with
  | add | sub => exact Nat.one_pos
  | mul => exact oneUnits_pos
  | div => exact magnitude_pos (h rfl)

/-- The quotient has the sign of the product. -/
theorem exactNum_div_neg_iff : exactNum .div x y < 0 ↔ scaled x * scaled y < 0 := by
  have hunits : (0 : Int) < oneUnits := Int.natCast_pos.2 oneUnits_pos
  simp only [exactNum, mul_neg_iff, mul_pos_iff, hunits, hunits.not_gt, Int.sign_pos_iff,
    Int.sign_neg_iff, and_true, and_false, or_false, false_or]

theorem natAbs_exactNum_div (hy : isZero y = false) :
    (exactNum .div x y).natAbs = magnitude x * oneUnits := by
  rw [exactNum, Int.natAbs_mul, Int.natAbs_mul, natAbs_scaled, Int.natAbs_natCast,
    Int.natAbs_sign_of_ne_zero (scaled_ne_zero hy), Nat.mul_one]

/-- A quotient's error may be taken over the magnitude of the divisor. -/
theorem natAbs_sub_sign_mul {b : Int} (hb : b ≠ 0) (z n : Int) :
    (z * b - n).natAbs = (z * b.natAbs - n * b.sign).natAbs := by
  rcases lt_or_gt_of_ne hb with hneg | hpos
  · rw [Int.sign_eq_neg_one_of_neg hneg, Int.ofNat_natAbs_of_nonpos hneg.le, ← Int.natAbs_neg]
    congr 1
    ring
  · rw [Int.sign_eq_one_of_pos hpos, Int.natAbs_of_nonneg hpos.le, mul_one]

/-- The error of a result `z` is its distance from the exact result, times the denominator. -/
theorem exactError_eq (h : RealOperands op x y) (z : Num64) :
    exactError op x y z = (scaled z * exactDen op y - exactNum op x y).natAbs := by
  cases op with
  | add => exact congrArg (fun u => (u - (scaled x + scaled y)).natAbs) (mul_one (scaled z)).symm
  | sub => exact congrArg (fun u => (u - (scaled x - scaled y)).natAbs) (mul_one (scaled z)).symm
  | mul => rfl
  | div =>
    have hy0 := scaled_ne_zero (h.divisor rfl)
    exact (natAbs_sub_sign_mul hy0 _ _).trans (by rw [natAbs_scaled]; rfl)

/-- R98: on finite operands the ALU packs the exact result, rounded once, under its sign; a zero may
have either. -/
theorem alu_eq_pack (h : RealOperands op x y) :
    ∃ neg, (exactNum op x y ≠ 0 → neg = decide (exactNum op x y < 0)) ∧
      alu op x y = pack neg (roundMag (exactNum op x y).natAbs (exactDen op y)) := by
  obtain ⟨hx, hy, hdiv⟩ := h
  cases op with
  | add => exact ⟨_, fun h => if_neg h, (alu_add x y).trans (addNum_finite hx hy)⟩
  | sub =>
    rw [alu_sub, addNum_finite hx ((isFinite_negate y).trans hy), scaled_negate, ← sub_eq_add_neg]
    exact ⟨_, fun h => if_neg h, rfl⟩
  | mul =>
    rw [alu_mul, mulNum_finite hx hy, ← natAbs_scaled, ← natAbs_scaled, ← Int.natAbs_mul]
    exact ⟨_, signs_eq_decide_mul, rfl⟩
  | div =>
    have hy0 := scaled_ne_zero (hdiv rfl)
    rw [alu_div, divNum_finite hx hy (hdiv rfl), natAbs_exactNum_div (hdiv rfl)]
    refine ⟨_, fun h => ?_, rfl⟩
    have hx0 : scaled x ≠ 0 := by
      rintro hx0
      simp only [exactNum, hx0, zero_mul, ne_eq, not_true] at h
    rw [signs_eq_decide_mul (mul_ne_zero hx0 hy0), decide_eq_decide, exactNum_div_neg_iff]

end exact

/-! ### Whole numbers -/

section whole

variable {op : AluOp} {x y : Num64}

/-- R98 item 2: an exact result that is a whole number of magnitude at most 2^53 is the result. -/
theorem isWhole_alu {n : Int} (h : RealOperands op x y) (hn : n.natAbs ≤ 2 ^ 53)
    (hexact : exactNum op x y = n * (oneUnits * exactDen op y)) : IsWhole (alu op x y) n := by
  obtain ⟨neg, hneg, halu⟩ := alu_eq_pack h
  have hden := exactDen_pos h.divisor
  have hscale : (0 : Int) < oneUnits * exactDen op y :=
    mul_pos (Int.natCast_pos.2 oneUnits_pos) (Int.natCast_pos.2 hden)
  rw [halu, hexact, Int.natAbs_mul, Int.natAbs_mul, Int.natAbs_natCast, Int.natAbs_natCast,
    ← Nat.mul_assoc]
  rw [hexact] at hneg
  refine isWhole_pack_roundMag hden hn fun hn0 => ?_
  rw [hneg (mul_ne_zero hn0 hscale.ne'), decide_eq_decide]
  simp only [mul_neg_iff, hscale, hscale.not_gt, and_true, and_false, false_or]

theorem realOperands_of_isWhole {p q : Int} (hx : IsWhole x p) (hy : IsWhole y q)
    (hop : op ≠ .div) : RealOperands op x y :=
  ⟨hx.1, hy.1, fun h => absurd h hop⟩

theorem isWhole_alu_add {p q : Int} (hx : IsWhole x p) (hy : IsWhole y q)
    (h : (p + q).natAbs ≤ 2 ^ 53) : IsWhole (alu .add x y) (p + q) := by
  refine isWhole_alu (realOperands_of_isWhole hx hy nofun) h ?_
  rw [exactNum, exactDen, hx.2, hy.2, Nat.cast_one]
  ring

theorem isWhole_alu_sub {p q : Int} (hx : IsWhole x p) (hy : IsWhole y q)
    (h : (p - q).natAbs ≤ 2 ^ 53) : IsWhole (alu .sub x y) (p - q) := by
  refine isWhole_alu (realOperands_of_isWhole hx hy nofun) h ?_
  rw [exactNum, exactDen, hx.2, hy.2, Nat.cast_one]
  ring

theorem isWhole_alu_mul {p q : Int} (hx : IsWhole x p) (hy : IsWhole y q)
    (h : (p * q).natAbs ≤ 2 ^ 53) : IsWhole (alu .mul x y) (p * q) := by
  refine isWhole_alu (realOperands_of_isWhole hx hy nofun) h ?_
  rw [exactNum, exactDen, hx.2, hy.2]
  ring

/-- R100, R77: `sub CP 1` undone by `IncrementCP`. -/
theorem isWhole_sub_add_one {n : Int} (hx : IsWhole x n) (hn : n.natAbs < 2 ^ 53) :
    IsWhole (alu .add (alu .sub x (ofInt 1)) (ofInt 1)) n := by
  have hone : IsWhole (ofInt 1) 1 := Proofs.literalsAreExact 1 (by decide)
  have hsub : IsWhole (alu .sub x (ofInt 1)) (n - 1) := isWhole_alu_sub hx hone (by omega)
  have hadd := isWhole_alu_add hsub hone (by omega)
  rwa [Int.sub_add_cancel] at hadd

end whole

end Sys2Proof.Machine

namespace Sys2Proof.Proofs

open Sys2Proof.Machine

/-- Settles O9: the exact result is the whole number, and packs without rounding. -/
theorem wholeArithmeticIsExact : Obligations.WholeArithmeticIsExact := fun _ _ _ _ hx hy =>
  ⟨isWhole_alu_add hx hy, isWhole_alu_sub hx hy, isWhole_alu_mul hx hy⟩

/-- Settles O20: the rule of every ALU instruction; the differences are evaluated, and one less and
then one more are both exact. -/
theorem subRule : Obligations.SubRule :=
  ⟨aluRule .sub, by decide +kernel, by decide +kernel, by decide +kernel,
    fun _ _ => isWhole_sub_add_one⟩

end Sys2Proof.Proofs
end

section
/-! PROOFS. Rounding to nearest, ties to even (R98, R98 item 1): the significand is rounded in units
of the last place, and every datum that is no whole number of these units lies below the binade, so
further away; the result is infinite from half such a unit past the largest finite datum on. -/

namespace Sys2Proof.Machine

/-! ### Rounding a fraction to a whole number -/

section half

variable {num den : Nat}

theorem div_le_roundHalfEven (num den : Nat) : num / den ≤ roundHalfEven num den := by
  unfold roundHalfEven
  dsimp only
  split <;> omega

theorem roundHalfEven_le_succ_div (num den : Nat) : roundHalfEven num den ≤ num / den + 1 := by
  unfold roundHalfEven
  dsimp only
  split <;> omega

/-- The rounding error is at most half, and exactly half only on an even result. -/
theorem roundHalfEven_error (hden : 0 < den) (num : Nat) :
    2 * ((roundHalfEven num den : Int) * den - num).natAbs ≤ den ∧
      (2 * ((roundHalfEven num den : Int) * den - num).natAbs = den →
        roundHalfEven num den % 2 = 0) := by
  have hdiv : den * (num / den) + num % den = num := Nat.div_add_mod num den
  have hmod : num % den < den := Nat.mod_lt num hden
  unfold roundHalfEven
  generalize num / den = q at *
  generalize num % den = r at *
  zify at hdiv
  rw [mul_comm] at hdiv
  simp only [Bool.or_eq_true, Bool.and_eq_true, decide_eq_true_eq, beq_iff_eq]
  split
  · rw [Nat.cast_succ, add_mul, one_mul]
    omega
  · omega

/-- No whole number is nearer than the rounded one; where another is as near, that one is even. -/
theorem roundHalfEven_nearest (hden : 0 < den) (num : Nat) (j : Int) :
    ((roundHalfEven num den : Int) * den - num).natAbs ≤ (j * den - num).natAbs ∧
      (((roundHalfEven num den : Int) * den - num).natAbs = (j * den - num).natAbs →
        j ≠ roundHalfEven num den → roundHalfEven num den % 2 = 0) := by
  obtain ⟨herror, heven⟩ := roundHalfEven_error hden num
  by_cases hj : j = roundHalfEven num den
  · exact ⟨by rw [hj], fun _ hne => absurd hj hne⟩
  · have hapart : den ≤ (j * den - (roundHalfEven num den : Int) * den).natAbs := by
      rw [← sub_mul, Int.natAbs_mul, Int.natAbs_natCast]
      exact Nat.le_mul_of_pos_left den (Int.natAbs_pos.2 (sub_ne_zero.2 hj))
    exact ⟨by omega, fun heq _ => heven (by omega)⟩

/-- A fraction rounds past an odd number `c` from the tie above it on. -/
theorem lt_roundHalfEven_iff (hden : 0 < den) {c : Nat} (hc : c % 2 = 1) :
    c < roundHalfEven num den ↔ (2 * c + 1) * den ≤ 2 * num := by
  obtain ⟨herror, heven⟩ := roundHalfEven_error hden num
  rw [add_mul, one_mul, mul_assoc]
  rcases lt_trichotomy c (roundHalfEven num den) with hlt | heq | hgt
  · have hnext : (c + 1) * den ≤ roundHalfEven num den * den := Nat.mul_le_mul_right den hlt
    rw [add_mul, one_mul] at hnext
    zify at hnext ⊢
    omega
  · rw [← heq] at herror heven ⊢
    omega
  · have hnext : (roundHalfEven num den + 1) * den ≤ c * den := Nat.mul_le_mul_right den hgt
    rw [add_mul, one_mul] at hnext
    zify at hnext ⊢
    omega

end half

/-! ### The significand of the result -/

section significand

variable {num den : Nat}

/-- The denominator of `num / den` counted in units of its last place, of `2^ulpExp` each. -/
def ulpDen (num den : Nat) : Nat := den * 2 ^ ulpExp (num / den)

/-- The result in units of its last place; 2^53 where it carries. -/
def significand (num den : Nat) : Nat := roundHalfEven num (ulpDen num den)

/-- The result in units. -/
def roundedUnits (num den : Nat) : Nat := significand num den * 2 ^ ulpExp (num / den)

theorem roundMag_eq (num den : Nat) :
    roundMag num den = min (ulpExp (num / den) * 2 ^ 52 + significand num den) infMag := rfl

theorem ulpDen_pos (hden : 0 < den) (num : Nat) : 0 < ulpDen num den :=
  Nat.mul_pos hden (Nat.two_pow_pos _)

theorem mul_two_pow_ulpExp_mul (c num den : Nat) :
    c * 2 ^ ulpExp (num / den) * den = c * ulpDen num den := by
  rw [mul_assoc, ulpDen, mul_comm den]

theorem num_lt_ulpDen (hden : 0 < den) (num : Nat) : num < 2 ^ 53 * ulpDen num den := by
  rw [← mul_two_pow_ulpExp_mul]
  exact (Nat.div_lt_iff_lt_mul hden).1 (lt_two_pow_ulpExp (num / den))

theorem ulpExp_eq_zero_or_ulpDen_le (hden : 0 < den) (num : Nat) :
    ulpExp (num / den) = 0 ∨ 2 ^ 52 * ulpDen num den ≤ num := by
  rw [← mul_two_pow_ulpExp_mul]
  exact (ulpExp_eq_zero_or_normal (num / den)).imp_right (Nat.le_div_iff_mul_le hden).1

theorem significand_le (hden : 0 < den) (num : Nat) : significand num den ≤ 2 ^ 53 :=
  (roundHalfEven_le_succ_div num _).trans
    ((Nat.div_lt_iff_lt_mul (ulpDen_pos hden num)).2 (num_lt_ulpDen hden num))

theorem ulpExp_eq_zero_or_le_significand (hden : 0 < den) (num : Nat) :
    ulpExp (num / den) = 0 ∨ 2 ^ 52 ≤ significand num den :=
  (ulpExp_eq_zero_or_ulpDen_le hden num).imp_right fun h =>
    ((Nat.le_div_iff_mul_le (ulpDen_pos hden num)).2 h).trans (div_le_roundHalfEven num _)

/-- A finite result is packed with its significand, in units of its last place. -/
theorem pack_roundMag_finite (neg : Bool) (hden : 0 < den) (h : roundMag num den < infMag) :
    magnitude (pack neg (roundMag num den)) = roundedUnits num den ∧
      fracOf (pack neg (roundMag num den)) % 2 = significand num den % 2 := by
  have hround : roundMag num den = ulpExp (num / den) * 2 ^ 52 + significand num den := by
    rw [roundMag_eq] at h ⊢
    omega
  rw [hround] at h ⊢
  refine ⟨magnitude_pack_significand neg (significand_le hden num)
    (ulpExp_eq_zero_or_le_significand hden num) h.le, ?_⟩
  rw [fracOf_pack neg h.le]
  omega

end significand

/-! ### The nearest datum -/

section nearest

variable {num den : Nat}

/-- Significands have 53 bits: a datum is a multiple of `2^k` units, or in a lower binade. -/
theorem two_pow_dvd_magnitude_or_lt (d : Num64) (k : Nat) :
    2 ^ k ∣ magnitude d ∨ magnitude d < 2 ^ 52 * 2 ^ k := by
  have hfrac : fracOf d < 2 ^ 52 := (d.extractLsb' 0 52).isLt
  unfold magnitude
  split
  · rcases Nat.eq_zero_or_pos k with rfl | hk
    · exact .inl (one_dvd _)
    · exact .inr (hfrac.trans_le (Nat.le_mul_of_pos_right _ (Nat.two_pow_pos k)))
  · rcases Nat.lt_or_ge (expOf d - 1) k with hlt | hge
    · refine .inr ?_
      calc (2 ^ 52 + fracOf d) * 2 ^ (expOf d - 1) < 2 ^ 53 * 2 ^ (expOf d - 1) :=
            Nat.mul_lt_mul_of_pos_right (by omega) (Nat.two_pow_pos _)
        _ = 2 ^ 52 * 2 ^ (expOf d - 1 + 1) := by rw [pow_succ 2 (expOf d - 1)]; ring
        _ ≤ 2 ^ 52 * 2 ^ k := Nat.mul_le_mul_left _ (Nat.pow_le_pow_right two_pos hlt)
    · exact .inl (Dvd.dvd.mul_left (pow_dvd_pow 2 hge) _)

/-- A number of units below the binade of `num / den` is further from it than the rounded one. -/
theorem significand_nearer_of_low (hden : 0 < den) {w : Int}
    (hw : w.natAbs < 2 ^ 52 * 2 ^ ulpExp (num / den)) (hle : 2 ^ 52 * ulpDen num den ≤ num) :
    ((significand num den : Int) * ulpDen num den - num).natAbs < (w * den - num).natAbs := by
  have hlow : w.natAbs * den < 2 ^ 52 * ulpDen num den := by
    rw [← mul_two_pow_ulpExp_mul]
    exact Nat.mul_lt_mul_of_pos_right hw hden
  have hwle : w * den ≤ w.natAbs * den := mul_le_mul_of_nonneg_right Int.le_natAbs (by omega)
  obtain ⟨hnear, -⟩ := roundHalfEven_nearest (ulpDen_pos hden num) num (2 ^ 52 : Nat)
  rw [← significand] at hnear
  omega

/-- No datum is nearer to `num / den` than the rounded one, and where another is as near, that one's
significand is even: a multiple of the unit in the last place by the rounding of the significand,
and a datum of a lower binade because the binade itself is nearer. -/
theorem roundedUnits_nearest (hden : 0 < den) (num : Nat) {w : Int}
    (hw : 2 ^ ulpExp (num / den) ∣ w.natAbs ∨ w.natAbs < 2 ^ 52 * 2 ^ ulpExp (num / den)) :
    ((roundedUnits num den : Int) * den - num).natAbs ≤ (w * den - num).natAbs ∧
      (((roundedUnits num den : Int) * den - num).natAbs = (w * den - num).natAbs →
        w ≠ roundedUnits num den → significand num den % 2 = 0) := by
  have hvalue : (roundedUnits num den : Int) * den = significand num den * ulpDen num den := by
    exact_mod_cast mul_two_pow_ulpExp_mul (significand num den) num den
  rw [hvalue]
  by_cases hdvd : 2 ^ ulpExp (num / den) ∣ w.natAbs
  · obtain ⟨j, rfl⟩ := Int.natCast_dvd.2 hdvd
    obtain ⟨hle, heven⟩ := roundHalfEven_nearest (ulpDen_pos hden num) num j
    have hj : ((2 ^ ulpExp (num / den) : Nat) : Int) * j * den = j * ulpDen num den := by
      rw [ulpDen, Nat.cast_mul]
      ring
    rw [hj]
    refine ⟨hle, fun heq hne => heven heq ?_⟩
    rintro rfl
    exact hne ((mul_comm _ _).trans (Nat.cast_mul _ _).symm)
  · have hle := (ulpExp_eq_zero_or_ulpDen_le hden num).resolve_left fun h0 => hdvd (by simp [h0])
    have hfar := significand_nearer_of_low hden (hw.resolve_left hdvd) hle
    exact ⟨hfar.le, fun heq => absurd heq hfar.ne⟩

/-- R98: the packed result under its sign. -/
theorem pack_roundMag_nearest (neg : Bool) (hden : 0 < den)
    (hfin : isFinite (pack neg (roundMag num den)) = true) {e : Int}
    (he : e = if neg then -(num : Int) else num) (z : Num64) :
    (scaled (pack neg (roundMag num den)) * den - e).natAbs ≤ (scaled z * den - e).natAbs ∧
      ((scaled (pack neg (roundMag num den)) * den - e).natAbs = (scaled z * den - e).natAbs →
        scaled z ≠ scaled (pack neg (roundMag num den)) →
        fracOf (pack neg (roundMag num den)) % 2 = 0) := by
  have hle := roundMag_le_infMag num den
  obtain ⟨hmag, hfrac⟩ := pack_roundMag_finite neg hden ((isFinite_pack neg hle).1 hfin)
  have hz := two_pow_dvd_magnitude_or_lt z (ulpExp (num / den))
  rw [← natAbs_scaled] at hz
  rw [scaled_pack neg hle, hmag, hfrac, he]
  cases neg with
  | false => exact roundedUnits_nearest hden num hz
  | true =>
    have hnear := roundedUnits_nearest hden num (w := -scaled z) (by rwa [Int.natAbs_neg])
    have hflip (u : Int) : (u * den - -num).natAbs = (-u * den - num).natAbs := by
      rw [← Int.natAbs_neg]
      congr 1
      ring
    simp only [if_true, hflip, neg_neg]
    exact ⟨hnear.1, fun heq hne => hnear.2 heq (mt neg_eq_iff_eq_neg.1 hne)⟩

/-- R98: the ALU gives a nearest datum to the exact result, ties to even. -/
theorem alu_nearest {op : AluOp} {x y : Num64} (h : RealOperands op x y)
    (hfin : isFinite (alu op x y) = true) (z : Num64) :
    exactError op x y (alu op x y) ≤ exactError op x y z ∧
      (exactError op x y (alu op x y) = exactError op x y z →
        scaled z ≠ scaled (alu op x y) → fracOf (alu op x y) % 2 = 0) := by
  obtain ⟨neg, hneg, halu⟩ := alu_eq_pack h
  have hsigned := signed_natAbs hneg 1
  simp only [mul_one] at hsigned
  rw [exactError_eq h, exactError_eq h, halu]
  rw [halu] at hfin
  exact pack_roundMag_nearest neg (exactDen_pos h.divisor) hfin hsigned.symm z

end nearest

/-! ### Overflow -/

section overflow

variable {num den : Nat}

/-- R98 item 1: the result is infinite from half a unit in the last place past the largest finite
datum on. -/
theorem isInf_pack_roundMag (neg : Bool) (hden : 0 < den) (num : Nat) :
    isInf (pack neg (roundMag num den)) = true ↔ overflowUnits * den ≤ num := by
  have hsig := significand_le hden num
  have hnormal := ulpExp_eq_zero_or_le_significand hden num
  have hlt := num_lt_ulpDen hden num
  have hulp := ulpExp_eq_zero_or_ulpDen_le hden num
  have hbits : isInf (pack neg (roundMag num den)) = true ↔
      2047 * 2 ^ 52 ≤ ulpExp (num / den) * 2 ^ 52 + significand num den := by
    rw [isInf_pack neg (roundMag_le_infMag num den), roundMag_eq]
    exact min_eq_right_iff
  have hunits : overflowUnits * den = (2 ^ 54 - 1) * (den * 2 ^ 2044) := by
    rw [overflowUnits, mul_assoc, mul_comm den]
  rw [hbits, hunits]
  rcases lt_trichotomy (ulpExp (num / den)) (2044 + 1) with hk | hk | hk
  · have hpow : ulpDen num den ≤ den * 2 ^ 2044 :=
      Nat.mul_le_mul_left _ (pow_le_pow_right₀ one_le_two (by omega))
    omega
  · have hround := lt_roundHalfEven_iff (num := num) (ulpDen_pos hden num) (c := 2 ^ 53 - 1) rfl
    have hden2 : ulpDen num den = den * 2 ^ 2044 * 2 := by rw [ulpDen, hk, pow_succ, mul_assoc]
    rw [← significand, hden2] at hround
    omega
  · have hpow : den * 2 ^ (2044 + 2) ≤ ulpDen num den :=
      Nat.mul_le_mul_left _ (pow_le_pow_right₀ one_le_two (by omega))
    rw [pow_add, ← mul_assoc] at hpow
    omega

section alu

variable {op : AluOp} {x y : Num64}

theorem overflowUnits_pos : 0 < overflowUnits := Nat.mul_pos (by decide) (pow_pos two_pos 2044)

theorem isInf_alu_iff (h : RealOperands op x y) :
    isInf (alu op x y) = true ↔ overflowUnits * exactDen op y ≤ (exactNum op x y).natAbs := by
  obtain ⟨neg, -, halu⟩ := alu_eq_pack h
  rw [halu]
  exact isInf_pack_roundMag neg (exactDen_pos h.divisor) _

/-- R98 item 1: an infinity from finite operands has the sign of the exact result. -/
theorem signOf_alu_of_isInf (h : RealOperands op x y) (hinf : isInf (alu op x y) = true) :
    signOf (alu op x y) = decide (exactNum op x y < 0) := by
  have hlarge := (isInf_alu_iff h).1 hinf
  have hpos : 0 < overflowUnits * exactDen op y :=
    Nat.mul_pos overflowUnits_pos (exactDen_pos h.divisor)
  obtain ⟨neg, hneg, halu⟩ := alu_eq_pack h
  rw [halu, signOf_pack neg (roundMag_le_infMag _ _)]
  exact hneg (Int.natAbs_pos.1 (hpos.trans_le hlarge))

/-- R98: a real result is finite or infinite, never a NaN. -/
theorem isFinite_alu_iff (h : RealOperands op x y) :
    isFinite (alu op x y) = true ↔ ¬ isInf (alu op x y) = true := by
  obtain ⟨neg, -, halu⟩ := alu_eq_pack h
  have hle := roundMag_le_infMag (exactNum op x y).natAbs (exactDen op y)
  rw [halu, isFinite_pack neg hle, isInf_pack neg hle]
  exact hle.lt_iff_ne

/-- R7: the finite data lie below the threshold of overflow. -/
theorem magnitude_lt_overflowUnits (h : isFinite x = true) : magnitude x < overflowUnits := by
  have hexp : expOf x < 2047 :=
    lt_of_le_of_ne (Nat.le_of_lt_succ (x.extractLsb' 52 11).isLt) (by simpa [isFinite] using h)
  have hfrac : fracOf x < 2 ^ 52 := (x.extractLsb' 0 52).isLt
  have hunit : 0 < 2 ^ 2044 := pow_pos two_pos 2044
  unfold magnitude overflowUnits
  split
  · omega
  · have hpow : 2 ^ (expOf x - 1) ≤ 2 ^ (2044 + 1) := pow_le_pow_right₀ one_le_two (by omega)
    calc (2 ^ 52 + fracOf x) * 2 ^ (expOf x - 1) ≤ (2 ^ 53 - 1) * 2 ^ (2044 + 1) :=
          Nat.mul_le_mul (by omega) hpow
      _ < (2 ^ 54 - 1) * 2 ^ 2044 := by rw [pow_succ]; omega

/-- R60: a literal is at least one unit of 1 in magnitude. -/
theorem IsLiteral.oneUnits_le_magnitude (h : IsLiteral y) : oneUnits ≤ magnitude y := by
  obtain ⟨n, hn0, hn, rfl⟩ := h
  obtain ⟨-, hvalue⟩ := Proofs.literalsAreExact n hn
  rw [← natAbs_scaled, hvalue, Int.natAbs_mul, Int.natAbs_natCast]
  exact Nat.le_mul_of_pos_left oneUnits (Int.natAbs_pos.2 hn0)

/-- R106 item 4: a divisor of magnitude at least 1 makes nothing larger. -/
theorem isFinite_alu_div_literal (hx : isFinite x = true) (hy : IsLiteral y) :
    isFinite (alu .div x y) = true := by
  have h : RealOperands .div x y := ⟨hx, hy.isFinite, fun _ => hy.isZero⟩
  rw [isFinite_alu_iff h, isInf_alu_iff h, natAbs_exactNum_div hy.isZero, not_le]
  calc magnitude x * oneUnits < overflowUnits * oneUnits :=
        Nat.mul_lt_mul_of_pos_right (magnitude_lt_overflowUnits hx) oneUnits_pos
    _ ≤ overflowUnits * magnitude y := Nat.mul_le_mul_left _ hy.oneUnits_le_magnitude

end alu

end overflow

end Sys2Proof.Machine

namespace Sys2Proof.Proofs

open Sys2Proof.Machine

/-- Settles O10: the error is the distance from the exact result, which the ALU rounds to a nearest
datum. -/
theorem aluRoundsToNearestEven : Obligations.AluRoundsToNearestEven :=
  fun _ _ _ hx hy hdiv hfin z _ => alu_nearest ⟨hx, hy, hdiv⟩ hfin z

/-- Settles O11: each operation by the threshold for its exact result. -/
theorem resultsOverflowToInfinity : Obligations.ResultsOverflowToInfinity := by
  intro x y hx hy
  have hadd : RealOperands .add x y := ⟨hx, hy, nofun⟩
  have hsub : RealOperands .sub x y := ⟨hx, hy, nofun⟩
  have hmul : RealOperands .mul x y := ⟨hx, hy, nofun⟩
  refine ⟨?_, signOf_alu_of_isInf hadd, ?_, signOf_alu_of_isInf hsub, isInf_alu_iff hmul,
    signOf_alu_of_isInf hmul, fun hy0 => ?_⟩
  · rw [isInf_alu_iff hadd, exactDen, Nat.mul_one, exactNum]
  · rw [isInf_alu_iff hsub, exactDen, Nat.mul_one, exactNum]
  · have hdiv : RealOperands .div x y := ⟨hx, hy, fun _ => hy0⟩
    refine ⟨?_, fun hinf => ?_⟩
    · rw [isInf_alu_iff hdiv, natAbs_exactNum_div hy0, natAbs_scaled, natAbs_scaled, exactDen]
    · rw [signOf_alu_of_isInf hdiv hinf, decide_eq_decide, exactNum_div_neg_iff]

/-- Settles O14: a quotient by a literal stays below the threshold of overflow. -/
theorem divisionByLiteralStaysFinite : Obligations.DivisionByLiteralStaysFinite :=
  fun _ _ => isFinite_alu_div_literal

end Sys2Proof.Proofs
end

section
/-! PROOFS. Progress (R107): what an instruction cannot do, it recovers from or marks (R110, R111), so
an unmarked state always has a next state. A marked state keeps still (R112), and so does `Idle`
(R121). -/

namespace Sys2Proof.Machine

/-! ### Every stage goes on -/

section progress

variable {s : State}

/-- R107, R114: with a slot that is empty or whole, every meaning has a next state. -/
theorem exec_total (hslot : s.SlotWhole) (ins : Instr) : ∃ t, exec ins s = .next t := by
  rcases exec_cases ins s with ⟨a, b, v, -, -, -, he⟩ | he | he | ⟨op, a, b, v, -, -, he⟩ | he
  case inr.inr.inr.inr =>
    rw [he]
    exact startCompute_total .main hslot
  all_goals exact ⟨_, he⟩

/-- R91: the resolve stage goes on, to the compute hold or to the mark of an uninitialized operand. -/
theorem resolveRelease_total (w : Which) (op : AluOp) (a : RegName) (v : Num64) (s : State) :
    ∃ t, resolveRelease w op a v s = .next t := by
  cases hx : s.readOperand a with
  | none => exact ⟨_, resolveRelease_none w op v hx⟩
  | some x => exact ⟨_, resolveRelease_some w op v hx⟩

/-- R55, R71: an existing cell is decoded and dispatched, or refused. -/
theorem step_total_of_fetchHold {i : Nat} (hslot : s.SlotWhole) (hlive : s.Live)
    (hp : s.phase = .fetchHold i) (hi : i < s.mem.length) : ∃ t, step s = .next t := by
  obtain ⟨l, hl⟩ := (s.memRead_some_iff i).2 hi
  cases hd : decode s.params.tokenizeStrict l with
  | ok ins =>
    rw [step_fetch hlive hp hl hd]
    exact exec_total (s := s.fetched l) hslot ins
  | error e => exact ⟨_, step_fetch_refused hlive hp hl hd⟩

/-- R80, R95: the invariant has a result and a target in the slot of a compute hold. -/
theorem State.Inv.step_total_of_computeHold {i : Nat} {w : Which} (h : s.Inv) (hlive : s.Live)
    (hp : s.phase = .computeHold i w) : ∃ t, step s = .next t := by
  cases w with
  | main =>
    have hok := h.2 hlive
    rw [State.PhaseOk, hp] at hok
    obtain ⟨-, -, -, ⟨op, x, y, t, ⟨-, -, -, hresult, htarget⟩, -⟩, -⟩ := hok
    rw [step_compute hlive hp]
    exact ⟨_, computeRelease_main i htarget hresult⟩
  | inc => exact ⟨_, h.step_increment hlive hp⟩

/-- R107: the invariant rules out a missing cell and a slot filled in part, where alone a step from
an unmarked state would stop. -/
theorem State.Inv.step_total (h : s.Inv) (hlive : s.Live) : ∃ t, step s = .next t := by
  cases hp : s.phase with
  | idle => exact ⟨s, step_idle hlive hp⟩
  | fetchHold i =>
    obtain ⟨rfl, hi, -⟩ := h.startCell_of_fetchHold hlive hp
    exact step_total_of_fetchHold h.1.slotWhole hlive hp hi
  | resolveHold i w op a v =>
    rw [step_resolve hlive hp]
    exact resolveRelease_total w op a v s
  | computeHold i w => exact h.step_total_of_computeHold hlive hp

end progress

/-! ### Marked states -/

theorem State.not_live_of_fault {s : State} {k : FaultKind} (h : s.fault = some k) : ¬ s.Live :=
  fun hlive => by simp [hlive.1] at h

theorem State.not_live_of_refused {s : State} {k : RefusalKind} (h : s.refused = some k) :
    ¬ s.Live :=
  fun hlive => by simp [hlive.2] at h

end Sys2Proof.Machine

namespace Sys2Proof.Proofs

open Sys2Proof.Machine

/-- Settles O54: by the phase, each stage goes on under the invariant. -/
theorem unmarkedStatesAlwaysStep : Obligations.UnmarkedStatesAlwaysStep :=
  fun _ hinv hlive => hinv.step_total hlive

/-- Settles O32: the equation of `step` for `Idle`. -/
theorem idleKeepsAllState : Obligations.IdleKeepsAllState := fun _ => step_idle

/-- Settles O33: the step by its mark; a load asks only that some mark is set. -/
theorem markedStatesAreFrozen : Obligations.MarkedStatesAreFrozen := fun _ =>
  ⟨fun _ hf => ⟨step_faulted hf, loadProgram_frozen (State.not_live_of_fault hf)⟩,
    fun _ hr hf => ⟨step_refused hf hr, loadProgram_frozen (State.not_live_of_refused hr)⟩⟩

end Sys2Proof.Proofs
end

section
/-! PROOFS. Creation (R27, R123) and loads (R127 to R134): which configurations are accepted, and
what a load between two runs answers, valid or invalid. -/

namespace Sys2Proof.Machine

/-! ### Creation -/

theorem availOk_iff {avail : List RegName} :
    availOk avail = true ↔ ∀ n ∈ avail, isToken n = true ∧ n ≠ cpName := by simp [availOk]

/-- R15, R29: registers that were never written read as uninitialized. -/
theorem lookupReg_unwritten (avail : List RegName) (m : RegName) :
    lookupReg (avail.map (fun n => (n, none))) m = none := by
  induction avail with
  | nil => rfl
  | cons n ns ih => rw [List.map_cons, lookupReg, ih, ite_self]

/-! ### The lines of a program text -/

section lines

variable {p : Text}

/-- R41: the substrings between separators hold nothing but characters of the text. -/
theorem mem_of_mem_pieces {sep : Char → Bool} {l : Text} :
    ∀ q ∈ pieces sep l, ∀ c ∈ q, c ∈ l := by
  induction l with
  | nil => simp [pieces]
  | cons d ds ih =>
    rw [pieces]
    split
    next => exact List.forall_mem_cons.2 ⟨nofun, fun q hq c hc => .tail d (ih q hq c hc)⟩
    next =>
      obtain ⟨q, qs, hqs⟩ := List.exists_cons_of_ne_nil (pieces_ne_nil sep ds)
      rw [hqs, List.forall_mem_cons] at ih
      simp only [hqs, List.forall_mem_cons]
      exact ⟨⟨.head ds, fun c hc => .tail d (ih.1 c hc)⟩, fun q hq c hc => .tail d (ih.2 q hq c hc)⟩

/-- R130: LFs alone are no lines. -/
theorem programLines_of_all_lf (h : ∀ c ∈ p, isLF c = true) : programLines p = [] :=
  filter_pieces_of_all_sep isLF h

/-- R130: the lines of LFs and whitespace hold whitespace alone. -/
theorem programLines_whitespace (h : ∀ c ∈ p, isLF c = true ∨ isWS c = true) {l : Text}
    (hl : l ∈ programLines p) : ∀ c ∈ l, isWS c = true := by
  intro c hc
  have hpiece := List.mem_of_mem_filter hl
  have hlf : isLF c = false := pieces_no_sep isLF p l hpiece c hc
  exact (h c (mem_of_mem_pieces l hpiece c hc)).resolve_left (by simp [hlf])

/-- R42: the cell at address `i` of an image holds the line at position `i`. -/
theorem State.memRead_of_image {s : State} (h : s.mem = buildImage p) (i : Nat) :
    s.memRead i = (programLines p)[i]? := by
  rw [State.memRead, h, ← List.getElem?_map, buildImage_values]

end lines

/-! ### A load between two runs -/

section load

variable {s : State} {p : Text} {n : Nat}

/-- R128: in `Idle` without marks a load is accepted. -/
theorem loadProgram_of_idle (h : s.Live) (hp : s.phase = .idle) (p : Text) (n : Nat) :
    s.loadProgram p n = s.loadClear ∨
      s.loadProgram p n = (s.loadClear.withImage p n).startCell 0 := by
  by_cases hinvalid : p = [] ∨ n = 0
  · exact .inl (loadProgram_invalid h hp hinvalid)
  · obtain ⟨htext, htime⟩ := not_or.1 hinvalid
    exact .inr (loadProgram_valid h hp htext htime)

theorem loadProgram_cycleTime_valid (h : s.Live) (hp : s.phase = .idle) (h0 : p ≠ []) (hn : n ≠ 0) :
    (s.loadProgram p n).cycleTime = some n := by
  rw [loadProgram_valid h hp h0 hn, State.startCell_cycleTime]

/-- R131, R132: a load of some lines starts the fetch of the first. -/
theorem loadProgram_lines (h : s.Live) (hp : s.phase = .idle) (h0 : p ≠ []) (hn : n ≠ 0) {l : Text}
    {rest : List Text} (hlines : programLines p = l :: rest) :
    s.loadProgram p n =
      { s.loadClear with
        cycleTime := some n
        mem := buildImage p
        seq := 0
        busActive := true
        busMessage := Config.msgFetch l
        phase := .fetchHold 0 } := by
  rw [loadProgram_valid h hp h0 hn]
  exact State.startCell_fetch (s.loadClear.withImage p n) 0
    ((State.memRead_of_image rfl 0).trans (by rw [hlines]; rfl))

/-- R131, R132: a load of no lines ends its run at once. -/
theorem loadProgram_no_lines (h : s.Live) (hp : s.phase = .idle) (h0 : p ≠ []) (hn : n ≠ 0)
    (hlines : programLines p = []) :
    s.loadProgram p n =
      { s.loadClear with cycleTime := some n, mem := [], seq := 0, phase := .idle } := by
  rw [loadProgram_valid h hp h0 hn, buildImage, hlines]
  exact State.startCell_past (s.loadClear.withImage [] n) 0 rfl

/-- R127: with `CLEAR_ON_LOAD` a load leaves the registers as creation made them, and an empty slot.
-/
theorem loadClear_cleared (h : s.params.clearOnLoad = true) :
    s.loadClear.x = s.params.avail.map (fun n => (n, none)) ∧ s.loadClear.cp = State.reset.cp ∧
      s.loadClear.ir = none ∧ s.loadClear.SlotEmpty := by
  rw [State.loadClear_reset h]
  exact ⟨rfl, rfl, rfl, State.clearRegisters_slotEmpty _⟩

theorem State.SlotEmpty.startCell (h : s.SlotEmpty) (i : Nat) : (s.startCell i).SlotEmpty := by
  simpa [State.SlotEmpty] using h

/-- R128: registers, `CP`, `IR` and slot after a load are those of its clearing stage. -/
theorem loadProgram_registers (h : s.Live) (hp : s.phase = .idle) (p : Text) (n : Nat) :
    s.loadClear.SameRegisters (s.loadProgram p n) ∧
      (s.loadClear.SlotEmpty → (s.loadProgram p n).SlotEmpty) := by
  rcases loadProgram_of_idle h hp p n with he | he <;> rw [he]
  · exact ⟨⟨rfl, rfl, rfl, rfl⟩, id⟩
  · have himage : s.loadClear.SameRegisters (s.loadClear.withImage p n) := ⟨rfl, rfl, rfl, rfl⟩
    exact ⟨himage.trans (State.sameRegisters_startCell _ 0),
      State.SlotEmpty.startCell (s := s.loadClear.withImage p n) (i := 0)⟩

end load

end Sys2Proof.Machine

namespace Sys2Proof.Proofs

open Sys2Proof.Machine

/-- Settles O44: the equation of a load outside `Idle`. -/
theorem reloadDuringRunIsRefused : Obligations.ReloadDuringRunIsRefused :=
  fun _ p n hlive hp => loadProgram_running hlive hp p n

/-- Settles O40: a good configuration gives the fresh state of its names, a bad one is refused. -/
theorem creationConfiguresRegisters : Obligations.CreationConfiguresRegisters := by
  refine fun avail strict clear => ⟨fun hgood => ?_, fun ⟨n, hn, hbad⟩ => ?_⟩
  · rw [State.create_of_availOk (availOk_iff.2 hgood)]
    exact ⟨⟨rfl, rfl⟩, fun _ => List.mem_dedup, lookupReg_unwritten avail.dedup,
      State.unwritten_names avail.dedup, rfl⟩
  · have hrefused : ¬ availOk avail = true := fun hok => by
      obtain ⟨htoken, hne⟩ := availOk_iff.1 hok n hn
      exact hbad.elim (by simp [htoken]) hne
    rw [State.create_of_not_availOk hrefused, State.refuse_refused]

/-- Settles O41: an invalid load only clears, and the lines of LFs and whitespace are whitespace. -/
theorem invalidLoadOnlyClears : Obligations.InvalidLoadOnlyClears := by
  refine fun s p n hlive hp => ⟨fun hinvalid => ?_, fun h0 hn => ⟨fun hlf => ?_, fun hws => ?_⟩⟩
  · rw [loadProgram_invalid hlive hp hinvalid]
    refine ⟨s.loadClear_mem, s.loadClear_cycleTime, s.loadClear_phase.trans hp,
      hlive.of_eq s.loadClear_fault s.loadClear_refused, s.loadClear_busActive,
      s.loadClear_busMessage, fun hkeep => ?_⟩
    rw [State.loadClear_keep hkeep]
  · rw [loadProgram_mem_valid hlive hp h0 hn, buildImage, programLines_of_all_lf hlf]
    exact ⟨rfl, loadProgram_cycleTime_valid hlive hp h0 hn⟩
  · refine ⟨loadProgram_cycleTime_valid hlive hp h0 hn, fun c hc => ?_⟩
    rw [loadProgram_mem_valid hlive hp h0 hn, buildImage] at hc
    obtain ⟨l, hl, rfl⟩ := List.mem_map.1 hc
    exact decode_whitespace (programLines_whitespace hws hl)

/-- Settles O42: by the lines of the text. -/
theorem validLoadStartsCellZero : Obligations.ValidLoadStartsCellZero := by
  refine fun s p n hlive hp h0 hn => ⟨?_, fun l rest hlines => ?_, fun hlines => ?_,
    fun hkeep => ⟨fun l rest hlines => ?_, fun hlines => ?_⟩⟩
  · refine ⟨loadProgram_cycleTime_valid hlive hp h0 hn, loadProgram_mem_valid hlive hp h0 hn, ?_⟩
    rw [loadProgram_valid hlive hp h0 hn]
    exact ⟨State.startCell_seq _ 0, hlive.of_eq (by simp) (by simp)⟩
  · rw [loadProgram_lines hlive hp h0 hn hlines]
    exact ⟨rfl, rfl, rfl⟩
  · rw [loadProgram_no_lines hlive hp h0 hn hlines]
    exact ⟨rfl, s.loadClear_busActive, s.loadClear_busMessage⟩
  · rw [loadProgram_lines hlive hp h0 hn hlines, State.loadClear_keep hkeep]
  · rw [loadProgram_no_lines hlive hp h0 hn hlines, State.loadClear_keep hkeep, ← hp]

/-- Settles O43: the clearing stage resets them, and the rest of a load leaves them. -/
theorem clearOnLoadResetsRegisters : Obligations.ClearOnLoadResetsRegisters := by
  intro s p n hlive hp hclear
  obtain ⟨hx, hcp, hir, hslot⟩ := loadClear_cleared hclear
  obtain ⟨hsame, hempty⟩ := loadProgram_registers hlive hp p n
  refine ⟨fun m => ?_, ?_, hsame.cp.trans hcp, hsame.ir.trans hir, hempty hslot⟩
  · rw [State.readReg, hsame.x, hx, lookupReg_unwritten]
  · rw [hsame.x, hx, State.unwritten_names]

end Sys2Proof.Proofs
end

section
/-! PROOFS. The cycles of a cell (R141), counted back from the write-back of `IncrementCP`: each
hold of the ALU path is one cycle further from the next cell than the hold it goes to. -/

namespace Sys2Proof.Machine

/-- R141: the sequencer index moves on after exactly `n` cycles, and until then the bus is busy. -/
def State.NextCellAfter (s : State) (n : Nat) : Prop :=
  (∃ t, steps n s = .next t ∧ t.Live ∧ t.seq = s.seq + 1) ∧
    ∀ k < n, ∃ t, steps k s = .next t ∧ t.Live ∧ t.seq = s.seq ∧ t.busActive = true

section count

variable {s t : State}

/-- The cycle that starts the next cell is the last one. -/
theorem State.NextCellAfter.last (h : s.Live) (hbus : s.busActive = true) (hs : step s = .next t)
    (ht : t.Live) (hseq : t.seq = s.seq + 1) : s.NextCellAfter 1 := by
  refine ⟨⟨t, steps_succ hs 0, ht, hseq⟩, fun k hk => ?_⟩
  obtain rfl := Nat.lt_one_iff.1 hk
  exact ⟨s, rfl, h, rfl, hbus⟩

/-- A cycle within the cell is one more. -/
theorem State.NextCellAfter.of_step {n : Nat} (h : s.Live) (hbus : s.busActive = true)
    (hs : step s = .next t) (hseq : t.seq = s.seq) (ht : t.NextCellAfter n) :
    s.NextCellAfter (n + 1) := by
  rw [State.NextCellAfter, hseq] at ht
  obtain ⟨hend, hwait⟩ := ht
  refine ⟨by rwa [steps_succ hs], fun k hk => ?_⟩
  cases k with
  | zero => exact ⟨s, rfl, h, rfl, hbus⟩
  | succ k =>
    rw [steps_succ hs]
    exact hwait k (Nat.lt_of_succ_lt_succ hk)

end count

/-! ### From each hold of the ALU path -/

section holds

variable {f : State} (h : f.Live) (hcell : f.cell = f.seq) (hi : f.seq < f.mem.length)

include h hcell hi

/-- R77: two cycles from the resolve hold of `IncrementCP`. -/
theorem atIncrement_nextCellAfter :
    (f.atResolve .inc .add cpName oneToken 1).NextCellAfter 2 :=
  .of_step (h.atResolve ..) rfl (step_atIncrement h) rfl <|
    .last h rfl (step_increment_writeback h (hcell.symm ▸ hi))
      (h.of_eq (State.startCell_fault _ _) (State.startCell_refused _ _))
      ((State.startCell_seq _ _).trans (congrArg (· + 1) hcell))

/-- R95, R96: three from the compute hold of an instruction. -/
theorem atCompute_nextCellAfter (op : AluOp) (x y : Num64) {n : RegName}
    (hn : f.currentTarget = some n) : (f.atCompute .main op x y n).NextCellAfter 3 := by
  refine .of_step (h.atCompute ..) rfl (step_atCompute_main h op x y hn) (State.computed_seq ..) ?_
  exact atIncrement_nextCellAfter (h.computed op x y n) (by simpa [State.cell] using hcell)
    (by simpa using hi)

/-- R91: four from its resolve hold. -/
theorem atResolve_nextCellAfter (op : AluOp) {a : RegName} (b : Token) (v : Int)
    (ha : f.readOperand a ≠ none) : (f.atResolve .main op a b v).NextCellAfter 4 := by
  obtain ⟨x, hx⟩ := Option.ne_none_iff_exists'.1 ha
  exact .of_step (h.atResolve ..) rfl (step_atResolve h .main op b v hx) rfl
    (atCompute_nextCellAfter (f := f.stage op x (ofInt v) a) h hcell hi op x (ofInt v) rfl)

/-! ### From the released fetch hold -/

/-- R73, R75: `IncrementCP` follows at once. -/
theorem incrementCP_nextCellAfter : ∃ t, incrementCP f = .next t ∧ t.NextCellAfter 2 :=
  ⟨_, incrementCP_eq f, atIncrement_nextCellAfter h hcell hi⟩

/-- R86: so it does after a `mov` that is not refused. -/
theorem execMov_nextCellAfter {a : RegName} {b : Token}
    (hmov : ¬ (a ∈ f.params.avail ∧ classify b = .unsettled)) :
    ∃ t, exec (.mov a b) f = .next t ∧ t.NextCellAfter 2 := by
  change ∃ t, execMov a b f = .next t ∧ t.NextCellAfter 2
  rcases execMov_cases a b f with ⟨v, -, -, he⟩ | ⟨ha, hb, -⟩ | ⟨-, he⟩
  · rw [he]
    exact incrementCP_nextCellAfter (f := f.writeReg a (ofInt v)) h hcell hi
  · exact absurd ⟨ha, hb⟩ hmov
  · rw [he]
    exact incrementCP_nextCellAfter h hcell hi

/-- R91: an accepted ALU line on an initialized operand goes to its resolve hold. -/
theorem exec_accepted_nextCellAfter (op : AluOp) {a : RegName} {b : Token} (hab : f.Accepts a b)
    (hx : f.readOperand a ≠ none) :
    ∃ t, exec (aluInstr op a b) f = .next t ∧ t.NextCellAfter 4 := by
  obtain ⟨ha, v, hb⟩ := hab
  exact ⟨_, exec_aluInstr_accepted ha hb op, atResolve_nextCellAfter h hcell hi op b v hx⟩

/-- R94: a rejected one goes to the compute hold of the slot as it stands. -/
theorem exec_rejected_nextCellAfter (op : AluOp) {a : RegName} {b : Token} (hab : f.Rejects a b)
    (hslot : f.SlotWhole) (hfilled : f.pendingOpcode ≠ none) :
    ∃ t, exec (aluInstr op a b) f = .next t ∧ t.NextCellAfter 3 := by
  obtain ⟨t, ht⟩ := startCompute_total .main hslot
  refine ⟨t, (exec_aluInstr_rejected hab op).trans ht, ?_⟩
  rcases startCompute_cases ht with ⟨hempty, -⟩ | ⟨op', x, y, n, -, -, -, hn, rfl⟩
  · exact absurd hempty hfilled
  · exact atCompute_nextCellAfter h hcell hi op' x y hn

end holds

/-- R71: the fetch hold is one cycle before them. -/
theorem State.Inv.nextCellAfter_of_fetchHold {s : State} {i n : Nat} {l : Text} {ins : Instr}
    (hinv : s.Inv) (hlive : s.Live) (hp : s.phase = .fetchHold i) (hl : s.memRead i = some l)
    (hd : decode s.params.tokenizeStrict l = .ok ins)
    (h : ∃ t, exec ins (s.fetched l) = .next t ∧ t.NextCellAfter n) : s.NextCellAfter (n + 1) := by
  obtain ⟨t, he, ht⟩ := h
  have hok := hinv.2 hlive
  rw [State.PhaseOk, hp] at hok
  obtain ⟨hbus, -⟩ := hok
  have hseq : t.seq = s.seq := exec_seq (s := s.fetched l) he
  exact .of_step hlive hbus ((step_fetch hlive hp hl hd).trans he) hseq ht

end Sys2Proof.Machine

namespace Sys2Proof.Proofs

open Sys2Proof.Machine

/-- Settles O55: one cycle of fetch, and those that each kind of line takes from there. -/
theorem cellCycleCounts : Obligations.CellCycleCounts := by
  intro s i l ins n hinv hlive hp hl hd hkind
  obtain ⟨rfl, hi, -⟩ := hinv.startCell_of_fetchHold hlive hp
  have hlive' : (s.fetched l).Live := hlive
  have hcell := State.fetched_cell hp l
  have hfetch {m : Nat} (h : ∃ t, exec ins (s.fetched l) = .next t ∧ t.NextCellAfter m) :
      s.NextCellAfter (m + 1) := hinv.nextCellAfter_of_fetchHold hlive hp hl hd h
  rcases hkind with ⟨ts, rfl, rfl⟩ | ⟨op, a, b, rfl, rfl⟩ | ⟨a, b, rfl, hmov, rfl⟩ |
    ⟨op, a, b, rfl, haccepts, hx, rfl⟩ | ⟨op, a, b, rfl, hrejects, hfilled, rfl⟩
  · exact hfetch (incrementCP_nextCellAfter hlive' hcell hi)
  · exact hfetch (incrementCP_nextCellAfter hlive' hcell hi)
  · exact hfetch (execMov_nextCellAfter hlive' hcell hi hmov)
  · exact hfetch (exec_accepted_nextCellAfter hlive' hcell hi op haccepts hx)
  · exact hfetch (exec_rejected_nextCellAfter hlive' hcell hi op hrejects hinv.1.slotWhole hfilled)

end Sys2Proof.Proofs
end

section
/-! PROOFS. `CP` over a run (R143): a cell that is no accepted ALU instruction on `CP` leaves `CP` to
its `IncrementCP`, so `Run()` (R78) adds 1 for each cell, and the engine ends where `Run()` does. -/

namespace Sys2Proof.Machine

/-! ### The instruction's own action -/

/-- `t` has the control pointer's value, memory, parameters and sequencer index of `s`. -/
structure State.SameCount (s t : State) : Prop where
  cp : t.cp.value = s.cp.value
  mem : t.mem = s.mem
  params : t.params = s.params
  seq : t.seq = s.seq

section action

variable {s t u : State}

theorem State.SameCount.trans (h : s.SameCount t) (h' : t.SameCount u) : s.SameCount u :=
  ⟨h'.cp.trans h.cp, h'.mem.trans h.mem, h'.params.trans h.params, h'.seq.trans h.seq⟩

@[simp] theorem State.computed_params (op : AluOp) (x y : Num64) (t : RegName) :
    (s.computed op x y t).params = s.params := State.writeTarget_params _ _ _

theorem State.computed_cp (op : AluOp) (x y : Num64) (t : RegName) :
    (s.computed op x y t).cp = if t = cpName then ⟨.direct, alu op x y⟩ else s.cp :=
  State.writeTarget_cp _ _ _

theorem State.sameCount_computed {op : AluOp} {x y : Num64} {t : RegName}
    (h : t = cpName → alu op x y = s.cp.value) : s.SameCount (s.computed op x y t) where
  cp := by
    rw [State.computed_cp]
    split
    next ht => exact h ht
    next => rfl
  mem := State.computed_mem ..
  params := State.computed_params ..
  seq := State.computed_seq ..

/-- R104: computing the slot of the last `IncrementCP` again leaves `CP` at its value. -/
theorem computeAndWriteback_sameCount (hslot : s.SlotIsIncrement) (hu : u.Live)
    (h : computeAndWriteback s = .next u) : s.SameCount u := by
  rcases hslot with ⟨hempty, -⟩ | ⟨c, ⟨h0, h1, h2, -, h4⟩, hcp⟩
  · rw [computeAndWriteback_empty hempty] at h
    obtain rfl := Host.Outcome.next.inj h
    exact absurd hu (State.raiseFault_not_live _ _)
  · rw [computeAndWriteback_full h0 h1 h2 h4] at h
    obtain rfl := Host.Outcome.next.inj h
    exact State.sameCount_computed fun _ => hcp.symm

/-- R90, R91, R104: an ALU line that is not accepted on `CP` leaves `CP` at its value. -/
theorem aluDispatch_sameCount {op : AluOp} {a : RegName} {b : Token} (hlive : s.Live)
    (hslot : s.SlotIsIncrement) (hab : a = cpName → ∀ v, classify b ≠ .lit v) (hu : u.Live)
    (h : aluDispatch op a b s = .next u) : s.SameCount u := by
  rcases dispatchAlu_cases .main op a b s with ⟨v, ha, hb, -⟩ | ⟨ha, hb, -⟩ | ⟨hrejects, -⟩
  · cases hx : s.readOperand a with
    | none =>
      rw [aluDispatch_uninitialized ha hb hx] at h
      obtain rfl := Host.Outcome.next.inj h
      exact absurd hu (State.raiseFault_not_live _ _)
    | some x =>
      rw [aluDispatch_accepted hlive ha hb hx] at h
      obtain rfl := Host.Outcome.next.inj h
      have hstaged : s.SameCount (s.stage op x (ofInt v) a) := ⟨rfl, rfl, rfl, rfl⟩
      exact hstaged.trans (State.sameCount_computed fun hname => absurd hb (hab hname v))
  · rw [aluDispatch_unsettled ha hb] at h
    obtain rfl := Host.Outcome.next.inj h
    exact absurd hu (State.refuse_not_live _ _)
  · rw [aluDispatch_of_path hlive (resolvePath_rejected hrejects)] at h
    exact computeAndWriteback_sameCount hslot hu h

theorem movProcedure_sameCount (a : RegName) (b : Token) (hu : (movProcedure a b s).Live) :
    s.SameCount (movProcedure a b s) := by
  rcases execMov_cases a b s with ⟨v, ha, hb, -⟩ | ⟨ha, hb, -⟩ | ⟨hdropped, -⟩
  · rw [movProcedure_lit ha hb]
    exact ⟨rfl, rfl, rfl, rfl⟩
  · rw [movProcedure_unsettled ha hb] at hu
    exact absurd hu (State.refuse_not_live _ _)
  · rw [movProcedure_dropped hdropped]
    exact ⟨rfl, rfl, rfl, rfl⟩

/-- R74: so does every instruction but an accepted ALU instruction on `CP`. -/
theorem dispatch_sameCount {d : Instr} (hlive : s.Live) (hslot : s.SlotIsIncrement)
    (hd : ∀ op b v, d = aluInstr op cpName b → classify b ≠ .lit v) (hu : u.Live)
    (h : dispatch d s = .next u) : s.SameCount u := by
  have halu (op : AluOp) (a : RegName) (b : Token) (hda : d = aluInstr op a b)
      (h : aluDispatch op a b s = .next u) : s.SameCount u :=
    aluDispatch_sameCount hlive hslot (fun hname v => hd op b v (hname ▸ hda)) hu h
  cases d with
  | mov a b =>
    obtain rfl := Host.Outcome.next.inj h
    exact movProcedure_sameCount a b hu
  | add a b => exact halu .add a b rfl h
  | sub a b => exact halu .sub a b rfl h
  | mul a b => exact halu .mul a b rfl h
  | div a b => exact halu .div a b rfl h
  | decodeSkip ts =>
    obtain rfl := Host.Outcome.next.inj h
    exact ⟨rfl, rfl, rfl, rfl⟩
  | unknownOpcode op a b =>
    obtain rfl := Host.Outcome.next.inj h
    exact ⟨rfl, rfl, rfl, rfl⟩

end action

/-! ### A cell and a run of the procedures -/

section run

variable {s u : State}

/-- R112: a procedure after another ends without a mark only where the first one does. -/
theorem live_of_afterLive {r : Result} {f : State → Result} (hu : u.Live)
    (h : afterLive r f = .next u) : ∃ t, r = .next t ∧ t.Live ∧ f t = .next u := by
  cases r with
  | next t =>
    by_cases ht : t.Live
    · exact ⟨t, rfl, ht, (afterLive_live ht f).symm.trans h⟩
    · rw [afterLive_marked ht] at h
      obtain rfl := Host.Outcome.next.inj h
      exact absurd hu ht
  | fault k => cases h
  | refused k => cases h

/-- R77: what `IncrementCP` staged is what the slot holds after it. -/
theorem State.incremented_slotIsIncrement (s : State) : s.incremented.SlotIsIncrement :=
  .inr ⟨s.cp.value, ⟨rfl, rfl, rfl, rfl, rfl⟩, rfl⟩

/-- R76: a cell that ends without a mark and leaves `CP` alone comes down to its `IncrementCP`. -/
theorem executeCell_increments {i : Nat} (hlive : s.Live) (hslot : s.SlotIsIncrement)
    (hcp : ∀ l, s.memRead i = some l → leavesCP s.params.tokenizeStrict l) (hu : u.Live)
    (h : executeCell i s = .next u) : ∃ t, s.SameCount t ∧ u = t.incremented := by
  cases hl : s.memRead i with
  | none => simp [executeCell, hl] at h
  | some l =>
    rw [executeCell_fetched hl] at h
    cases hd : decode s.params.tokenizeStrict l with
    | ok d =>
      simp only [decodeAndDispatch, State.fetched_params, hd] at h
      obtain ⟨t, ht, htlive, hinc⟩ := live_of_afterLive hu h
      obtain rfl := Host.Outcome.next.inj ((aluDispatch_increment htlive).symm.trans hinc)
      have hkeeps (op : AluOp) (b : Token) (v : Int) (hda : d = aluInstr op cpName b) :
          classify b ≠ .lit v := hcp l hl op b v (hd.trans (congrArg _ hda))
      have hlive' : (s.fetched l).Live := hlive
      have hslot' : (s.fetched l).SlotIsIncrement := hslot
      have hfetched : s.SameCount (s.fetched l) := ⟨rfl, rfl, rfl, rfl⟩
      exact ⟨t, hfetched.trans (dispatch_sameCount hlive' hslot' hkeeps htlive ht), rfl⟩
    | error e =>
      simp only [decodeAndDispatch, State.fetched_params, hd] at h
      obtain rfl := Host.Outcome.next.inj h
      exact absurd hu (State.refuse_not_live _ _)

/-- R78, R143: over `n` cells `Run()` adds `n` to `CP`. -/
theorem runCells_counts (n : Nat) {p : Int} (hlive : s.Live) (hslot : s.SlotIsIncrement)
    (hp : IsWhole s.cp.value p) (hlow : -(2 ^ 53) < p) (hhigh : p + n < 2 ^ 53)
    (hcp : ∀ j l, s.seq ≤ j → s.memRead j = some l → leavesCP s.params.tokenizeStrict l)
    (hu : u.Live) (h : runCells n s = .next u) : IsWhole u.cp.value (p + n) := by
  induction n generalizing s p with
  | zero =>
    obtain rfl := Host.Outcome.next.inj h
    simpa using hp
  | succ n ih =>
    rw [runCells] at h
    obtain ⟨v, hv, hvlive, hrest⟩ := live_of_afterLive hu h
    obtain ⟨t, ⟨hvalue, hmem, hparams, hseq⟩, rfl⟩ :=
      executeCell_increments hlive hslot (hcp s.seq · le_rfl) hvlive hv
    have hone : IsWhole (ofInt 1) 1 := Proofs.literalsAreExact 1 (by decide)
    have hnext : IsWhole (alu .add t.cp.value (ofInt 1)) (p + 1) :=
      isWhole_alu_add (hvalue.symm ▸ hp) hone (by omega)
    have hcells (j : Nat) (l : Text) (hj : t.seq + 1 ≤ j) (hl : t.memRead j = some l) :
        leavesCP t.params.tokenizeStrict l := by
      rw [hparams]
      exact hcp j l (by omega) ((State.memRead_eq s t hmem j).symm.trans hl)
    have hrun := ih (s := { t.incremented with seq := t.incremented.seq + 1 }) hvlive
      t.incremented_slotIsIncrement hnext (by omega) (by omega) hcells hrest
    rwa [add_assoc, add_comm (1 : Int), ← Nat.cast_succ] at hrun

end run

/-! ### The end of a run of the engine -/

section ending

variable {s t u : State}

/-- R121: `Idle` keeps its state for any number of cycles. -/
theorem steps_idle (h : s.Live) (hp : s.phase = .idle) (k : Nat) : steps k s = .next s := by
  induction k with
  | zero => rfl
  | succ k ih => rw [steps_succ (step_idle h hp), ih]

/-- R112: cycles that end without a mark start without one. -/
theorem steps_live {k : Nat} (h : steps k s = .next t) (ht : t.Live) : s.Live := by
  cases k with
  | zero => exact Host.Outcome.next.inj h ▸ ht
  | succ k =>
    obtain ⟨u, hs, -⟩ := exists_step_of_steps_succ h
    exact step_live hs

/-- An unmarked `Idle` state that a run reaches is reached from every state on the way there. -/
theorem steps_to_idle {m k : Nat} (hm : steps m s = .next u) (hk : steps k s = .next t)
    (ht : t.Live) (hp : t.phase = .idle) : steps k u = .next t := by
  rw [← steps_add hm, Nat.add_comm, steps_add hk, steps_idle ht hp]

/-- R81: so a run has one unmarked end. -/
theorem steps_idle_unique {m k : Nat} (hm : steps m s = .next u) (hk : steps k s = .next t)
    (hu : u.Live) (hup : u.phase = .idle) (ht : t.Live) (htp : t.phase = .idle) : t = u :=
  Host.Outcome.next.inj ((steps_to_idle hm hk ht htp).symm.trans (steps_idle hu hup k))

/-- R78: where the engine comes to `Idle` without a mark, `Run()` ends in that state. -/
theorem State.Inv.runCells_of_idle {i k : Nat} (hinv : s.Inv) (hlive : s.Live)
    (hp : s.phase = .fetchHold i) (hk : steps k s = .next t) (ht : t.Live)
    (htp : t.phase = .idle) : runCells (s.mem.length - i) s = .next t := by
  obtain ⟨u, v, m, hrun, -, hm, hend⟩ := Proofs.runsEndAsTheProcedureSays s i hinv hlive hp
  by_cases hu : u.Live
  · rw [if_pos hu] at hend
    obtain ⟨rfl, -, hidle, -⟩ := hend
    rw [hrun, steps_idle_unique hm hk hu hidle ht htp]
  · rw [if_neg hu] at hend
    rw [← hend] at hu
    exact absurd (steps_live (steps_to_idle hm hk ht htp) ht) hu

end ending

end Sys2Proof.Machine

namespace Sys2Proof.Proofs

open Sys2Proof.Machine

/-- Settles O58: an unmarked end of the engine is the end of `Run()`, which counts the cells. -/
theorem controlPointerCountsCells : Obligations.ControlPointerCountsCells := by
  intro s i p hinv hslot hlive hp hwhole hlow hhigh hcp k t hk ht htp
  obtain ⟨rfl, hi, -⟩ := hinv.startCell_of_fetchHold hlive hp
  rw [← Nat.cast_sub hi.le] at hhigh ⊢
  exact runCells_counts _ hlive (hslot.slotIsIncrement_of_fetchHold hp) hwhole hlow hhigh hcp ht
    (hinv.runCells_of_idle hlive hp hk ht htp)

end Sys2Proof.Proofs
end
